-- ==== Sys2Proof/Word.lean ====
section
/-!
DEFINITION. The bit vectors of the block, each named by the format of spec/ that fixes its width
(30_encoding.md R40 to R42; 20_memory.md R26). Every one is unsigned with bit 0 least significant (R11).
-/

namespace Sys2Proof

/-- Format N64: the 64-bit operand, bit `i` of weight `2^i` (30_encoding.md R40). -/
abbrev Word := BitVec 64

/-- Format IDX6: the 6-bit result in plain weighted binary (30_encoding.md R41). -/
abbrev Index := BitVec 6

/-- Format A4: an address into `T4` (30_encoding.md R42). -/
abbrev Address4 := BitVec 4

/-- Format A8: an address into `T8` (30_encoding.md R42). -/
abbrev Address8 := BitVec 8

/-- Format E2: an entry of `T4`, value 0 to 3 (30_encoding.md R42, 20_memory.md R26). -/
abbrev Entry2 := BitVec 2

/-- Format E3: an entry of `T8`, value 0 to 7 (30_encoding.md R42, 20_memory.md R26). -/
abbrev Entry3 := BitVec 3

end Sys2Proof
end

