-- ==== Sys2Proof/Config.lean ====
section
/-!
DEFINITION. What is fixed when a block is built: VARIANT, the one named parameter (00_scope.md R8, D8).
No free value stands here: the spec treats nothing in the block as `any value` (93_implementation_defined.md).
-/

namespace Sys2Proof

/-- VARIANT: which of the four structures a block is built with (00_scope.md R8). An inductive type with
exactly four constructors, so that a value naming no hardware cannot be written (30_encoding.md R48). -/
inductive Variant where
  | full   -- 0, "Full loop"
  | roll   -- 1, "Full loop, rolled up"
  | tab4   -- 2, "Table-assisted (4-bit)"
  | tab8   -- 3, "Table-assisted (8-bit)"
  deriving DecidableEq, Repr

/-- The default of VARIANT, "1 (HB.ROLL)" (00_scope.md R8): the rolled-up loop is the canonical version. -/
def Config.defaultVariant : Variant := .roll

end Sys2Proof
end

