-- ==== Sys2Proof/Syntax.lean ====
section
/-!
DEFINITION. The operations (one constructor per row of spec/opcode_table.json), the lines of the stimulus
notation with its two pseudo-operations (30_encoding.md R51), and what the environment may bring to the
building of a block: a VARIANT number and the levels on the 64 input wires (R48, R108).
-/

namespace Sys2Proof

/-- The four operations of 30_encoding.md R46, each with its whole operand word, the value on port `n`. -/
inductive Instr where
  | hbFull (n : Word)   -- HB.FULL, VARIANT 0
  | hbRoll (n : Word)   -- HB.ROLL, VARIANT 1
  | hbTab4 (n : Word)   -- HB.TAB4, VARIANT 2
  | hbTab8 (n : Word)   -- HB.TAB8, VARIANT 3
  deriving DecidableEq, Repr

/-- The VARIANT whose row of the operation table the operation is (30_encoding.md R46). -/
def Instr.variant : Instr → Variant
  | .hbFull _ => .full
  | .hbRoll _ => .roll
  | .hbTab4 _ => .tab4
  | .hbTab8 _ => .tab8

/-- The operand: all 64 bits of the operation word (30_encoding.md R39, R46). -/
def Instr.operand : Instr → Word
  | .hbFull n => n
  | .hbRoll n => n
  | .hbTab4 n => n
  | .hbTab8 n => n

/-- A line of a stimulus list: one of the four operations, or one of the two pseudo-operations
`HB` and `HB.ALL` (30_encoding.md R51). -/
inductive Stimulus where
  | op (i : Instr)
  | hb (n : Word)
  | hbAll (n : Word)
  deriving DecidableEq, Repr

/-- What a wire of port `n` may carry in hardware. Only the first two are inside the model; the others are
refused (70_reset_and_hazards.md R108, D7). -/
inductive Level where
  | low
  | high
  | unknown      -- X
  | highZ        -- Z
  | metastable
  deriving DecidableEq, Repr

/-- What a block is built from: a number for VARIANT and the levels on port `n`, wire 0 first. Raw data,
of which `Setup.wellFormed` says what names hardware inside the model. -/
structure Setup where
  variantNumber : Nat
  wires : List Level
  deriving DecidableEq, Repr

end Sys2Proof
end

