-- ==== Sys2Proof/WellFormed.lean ====
section
/-!
DEFINITION. The checks on raw terms: which operation a block of a given VARIANT has (30_encoding.md R46),
and which set-ups name hardware inside the model (R48, R108, 60_exceptions.md R100).
-/

namespace Sys2Proof

/-- An operation belongs to a block built with VARIANT `v` exactly when it is that VARIANT's row
(30_encoding.md R46). Its operand needs no check: every 64-bit word is legal (R47). -/
def Instr.wellFormed (v : Variant) (i : Instr) : Bool :=
  i.variant == v

/-- VARIANT has the legal values 0 to 3 (00_scope.md R8). -/
def Setup.variantLegal (b : Setup) : Bool :=
  decide (b.variantNumber < 4)

/-- Port `n` has 64 wires (10_state.md R19). -/
def Setup.portComplete (b : Setup) : Bool :=
  b.wires.length == 64

/-- A level the two-valued model knows (70_reset_and_hazards.md R108). -/
def Level.twoValued : Level → Bool
  | .low => true
  | .high => true
  | .unknown => false
  | .highZ => false
  | .metastable => false

/-- Every wire carries 0 or 1 (70_reset_and_hazards.md R108). -/
def Setup.inputTwoValued (b : Setup) : Bool :=
  b.wires.all Level.twoValued

/-- The set-ups a block can be built from (60_exceptions.md R100). -/
def Setup.wellFormed (b : Setup) : Bool :=
  b.variantLegal && b.portComplete && b.inputTwoValued

end Sys2Proof
end

