-- ==== Sys2Proof/Decode.lean ====
section
/-!
DEFINITION. The operation table, the decoder made from it, and the encoder (30_encoding.md section 3).
No bit of the operation word selects the operation: a decoder reads VARIANT, takes that row, and the
operand is the whole word (R46). There is no byte order: the word is the value on the port (20_memory.md R28).
-/

namespace Sys2Proof

/-- The number of a VARIANT (00_scope.md R8). -/
def variantNumber : Variant → Nat
  | .full => 0
  | .roll => 1
  | .tab4 => 2
  | .tab8 => 3

/-- The VARIANT a number names, none outside 0 to 3 (30_encoding.md R48). -/
def variantOfNumber : Nat → Option Variant
  | 0 => some .full
  | 1 => some .roll
  | 2 => some .tab4
  | 3 => some .tab8
  | _ => none

/-- A row of the operation table: the keys of spec/opcode_table.json a decoder reads. -/
structure OpcodeRow where
  mnemonic : String
  variant  : Variant
  mask     : Word
  pattern  : Word
  deriving DecidableEq, Repr

/-- The four rows of the operation table, each with mask 0 and match 0 (30_encoding.md R46). -/
def opcodeTable : List OpcodeRow :=
  [ ⟨"HB.FULL", .full, 0x0000000000000000#64, 0x0000000000000000#64⟩,
    ⟨"HB.ROLL", .roll, 0x0000000000000000#64, 0x0000000000000000#64⟩,
    ⟨"HB.TAB4", .tab4, 0x0000000000000000#64, 0x0000000000000000#64⟩,
    ⟨"HB.TAB8", .tab8, 0x0000000000000000#64, 0x0000000000000000#64⟩ ]

/-- A word has the bits a row asks for. -/
def rowMatches (r : OpcodeRow) (w : Word) : Bool :=
  w &&& r.mask == r.pattern

/-- The operation of a VARIANT's row with operand word `w` (30_encoding.md R46). -/
def decodeWord (v : Variant) (w : Word) : Instr :=
  match v with
  | .full => .hbFull w
  | .roll => .hbRoll w
  | .tab4 => .hbTab4 w
  | .tab8 => .hbTab8 w

/-- Why raw data is no operation of any block. -/
inductive Undecodable where
  /-- VARIANT outside 0 to 3 names no row and no hardware (30_encoding.md R48). -/
  | variantOutOfRange (number : Nat)
  /-- The operation word is always 64 bits (30_encoding.md R39, R49). -/
  | notSixtyFourBits (nbits : Nat)
  /-- The number has a bit above bit 63, so it is no 64-bit word (30_encoding.md R40). -/
  | notAWord (w : Nat)
  deriving DecidableEq, Repr

/-- The decoder on raw data: a VARIANT number and a word of `nbits` bits given as a number. A word of any length but
64 bits is refused (30_encoding.md R49). Total; what it refuses it refuses by name. -/
def decode (variant nbits w : Nat) : Except Undecodable Instr :=
  match variantOfNumber variant with
  | none => .error (.variantOutOfRange variant)
  | some v =>
    if nbits ≠ 64 then .error (.notSixtyFourBits nbits)
    else if 2 ^ 64 ≤ w then .error (.notAWord w)
    else .ok (decodeWord v (BitVec.ofNat 64 w))

/-- The encoder: the operation word, which is the operand and nothing else (30_encoding.md R39, R46).
The other half of what names an operation, VARIANT, is `Instr.variant`. -/
def encode (i : Instr) : Word :=
  match i with
  | .hbFull n => n
  | .hbRoll n => n
  | .hbTab4 n => n
  | .hbTab8 n => n

/-- The host's way of giving a word, as a bit count and a number, as an operation word: 64 bits and nothing else
(30_encoding.md R39, R49). Any other count, or a number of more than 64 bits, is no word: none is padded and none is
cut. -/
def hostWord (nbits w : Nat) : Option Word :=
  if nbits = 64 ∧ w < 2 ^ 64 then some (BitVec.ofNat 64 w) else none

/-- The host's question: what the decoder reads from a word of the opcode table. A word does not say which
row it is of (30_encoding.md R46), so the answer is that of a block whose VARIANT is not named, which
has the default VARIANT (00_scope.md R8; DESIGN CHOICE, log 6). -/
def decodeTableWord (nbits w : Nat) : Option Instr :=
  match hostWord nbits w with
  | none => none
  | some word => (decode (variantNumber Config.defaultVariant) 64 word.toNat).toOption

end Sys2Proof
end

