-- ==== Sys2Proof/Machine/State.lean ====
section
/-!
DEFINITION. The state, the reasons a machine can stop, and reset.
The block has no architectural state (10_state.md R13): no register, program counter, flag, mode, control register
or writable memory (R14 to R18, 20_memory.md R27), and its ports hold nothing (R14). `Block` is what is built, and no
field of it ever changes; `Environment` is the other party (70_reset_and_hazards.md R112): the value it drives on
`n` and the readings of `idx` it has taken. Port `idx` is no field: `State.idx` of Machine/Function.lean is the value
it carries for the value now on `n` (R20, R22).
-/

namespace Sys2Proof.Machine

/-- The set of exception causes is empty (60_exceptions.md R87): no fault exists, none is raised. -/
inductive Fault where
  deriving DecidableEq, Repr

/-- The reasons for a refusal. The block itself refuses nothing (60_exceptions.md R100): `exec` and `step`
raise none of these. -/
inductive Refusal where
  /-- Kept for an operation without a meaning; no arm of `exec` raises it. Safe: it removes behaviour. -/
  | notModelled (mnemonic : String)
  /-- Raised by `build` for a VARIANT outside 0 to 3, which names no hardware (30_encoding.md R48). Safe. -/
  | variantOutOfRange (number : Nat)
  /-- Raised by `build` for an input that is not a vector of 64 bits (70_reset_and_hazards.md R108). Safe. -/
  | wrongWireCount (count : Nat)
  /-- Raised by `build` for an input with an X, Z or metastable bit; `wire` is the lowest such bit
  (70_reset_and_hazards.md R108, D7). Safe. -/
  | inputNotTwoValued (wire : Nat)
  deriving DecidableEq, Repr

/-- The block as built: all that persists in it besides the constant tables. No evaluation changes a field of it
(10_state.md R13). -/
structure Block where
  /-- VARIANT, an elaboration-time parameter and no register (00_scope.md R8, 10_state.md R17; DESIGN CHOICE, log 1). -/
  variant : Variant
  deriving DecidableEq, Repr

/-- One evaluation as the environment saw it: the value it presented and the `idx` it read (00_scope.md R10, the
observation; 70_reset_and_hazards.md R111, a result). -/
structure Reading where
  operand : Word
  idx     : Index
  deriving DecidableEq, Repr

/-- The environment, outside the block (70_reset_and_hazards.md R112; DESIGN CHOICE, log 2, log 12). -/
structure Environment where
  /-- The value the environment drives on input port `n` (10_state.md R19). -/
  n : Word
  /-- The results of the evaluations so far, in order (70_reset_and_hazards.md R111). -/
  readings : List Reading
  deriving DecidableEq, Repr

/-- A block and the environment that uses it. -/
structure State where
  block : Block
  env   : Environment
  deriving DecidableEq, Repr

/-- The block before any stimulus: the default VARIANT (00_scope.md R8), the environment driving 0
(DESIGN CHOICE, log 3) and having read nothing. The block has nothing to reset (10_state.md R22, R101). -/
def State.reset : State :=
  { block := { variant := Config.defaultVariant }, env := { n := 0#64, readings := [] } }

end Sys2Proof.Machine
end

