-- ==== Sys2Proof/Machine/Operands.lean ====
section
/-!
DEFINITION. Operand assembly (30_encoding.md section 2): the shift amount of a stage, the two table
addresses, and the narrowing of the finished index to the output port. Inside an evaluation the running
index is a natural, its sums exact (00_scope.md R11; DEDUCED, log 9).
-/

namespace Sys2Proof.Machine

/-- The shift amount of the stage of width `w`: the plain sum of two naturals (30_encoding.md R43). -/
def shiftAmount (index w : Nat) : Nat :=
  index + w

/-- `a >> s`: the logical right shift, zeros entering at the top (00_scope.md R11, 40_highest_bit_loop.md R64). -/
def shiftRight (a : Word) (s : Nat) : Word :=
  a >>> s

/-- The `T4` address: the low 4 bits of `n >> index` (30_encoding.md R42, R44; D13). -/
def address4 (n : Word) (index : Nat) : Address4 :=
  (shiftRight n index).extractLsb' 0 4

/-- The `T8` address: the low 8 bits of `n >> index` (30_encoding.md R42, R44; D13). -/
def address8 (n : Word) (index : Nat) : Address8 :=
  (shiftRight n index).extractLsb' 0 8

/-- The finished index on the 6 wires of port `idx` (30_encoding.md R41). Nothing is lost: no index exceeds 63
(40_highest_bit_loop.md R58; DEDUCED, log 9). -/
def toPort (index : Nat) : Index :=
  BitVec.ofNat 6 index

end Sys2Proof.Machine
end

