-- ==== Sys2Proof/Machine/Flags.lean ====
section
/-!
DEFINITION. The block has no flags (10_state.md R16). The one-bit values it computes are the stage tests,
values of one evaluation that no port shows and nothing holds (R16, R21, 40_highest_bit_loop.md R56).
-/

namespace Sys2Proof.Machine

/-- `v != 0`, the OR of all 64 bits (00_scope.md R11, 40_highest_bit_loop.md R64). -/
def anySet (v : Word) : Bool :=
  v != 0#64

/-- The test of the stage of width `w`: `(n >> (index + w)) != 0` (40_highest_bit_loop.md R55). -/
def stageTest (n : Word) (index w : Nat) : Bool :=
  anySet (shiftRight n (shiftAmount index w))

end Sys2Proof.Machine
end

