-- ==== Sys2Proof/Machine/Rom.lean ====
section
/-!
DEFINITION. The two read-only tables, the block's only memory (20_memory.md R23), and RomRead, its only access
(R30). They are constants of the built block: no write path, no load step, no uninitialised window (R27,
70_reset_and_hazards.md R102; DEDUCED, log 10). They are written as the spec lists them, not computed from `HB`.
-/

namespace Sys2Proof.Machine

/-- The two address spaces (20_memory.md R23). -/
inductive Table where
  | t4   -- FourBitHighBits
  | t8   -- EightBitHighBits
  deriving DecidableEq, Repr

/-- The table a block of VARIANT `v` contains: none, none, `T4`, `T8` (20_memory.md R23, D14). -/
def tableOf : Variant → Option Table
  | .full => none
  | .roll => none
  | .tab4 => some .t4
  | .tab8 => some .t8

/-- Contents of `T4`, address 0 first (20_memory.md R24). -/
def t4Contents : List Entry2 :=
  [0#2, 0#2, 1#2, 1#2, 2#2, 2#2, 2#2, 2#2, 3#2, 3#2, 3#2, 3#2, 3#2, 3#2, 3#2, 3#2]

/-- Contents of `T8`, address 0 first, as the runs of equal entries the spec lists (20_memory.md R25). -/
def t8Contents : List Entry3 :=
  List.replicate 1 0#3 ++ List.replicate 1 0#3 ++ List.replicate 2 1#3 ++ List.replicate 4 2#3 ++
  List.replicate 8 3#3 ++ List.replicate 16 4#3 ++ List.replicate 32 5#3 ++ List.replicate 64 6#3 ++
  List.replicate 128 7#3

/-- `T4` has 16 entries (20_memory.md R23). -/
theorem t4Contents_length : t4Contents.length = 16 := rfl

/-- `T8` has 256 entries (20_memory.md R23). -/
theorem t8Contents_length : t8Contents.length = 256 := by
  simp only [t8Contents, List.length_append, List.length_replicate]

/-- `RomRead(T4, a)`: the whole entry at `a`, with no side effect (20_memory.md R30). -/
def romReadT4 (a : Address4) : Entry2 :=
  t4Contents[a.toNat]'(t4Contents_length ▸ a.isLt)

/-- `RomRead(T8, a)`: the whole entry at `a`, with no side effect (20_memory.md R30). -/
def romReadT8 (a : Address8) : Entry3 :=
  t8Contents[a.toNat]'(t8Contents_length ▸ a.isLt)

end Sys2Proof.Machine
end

