-- ==== Sys2Proof/Machine/Ops.lean ====
section
/-!
DEFINITION. The shared operations: the narrowing stage and the list of stages (40_highest_bit_loop.md R55), the
two table resolutions (41_highest_bit_table.md R70, R71), and one evaluation seen at the ports: the environment
presenting an operand and reading the result. The block takes no exception and returns from none
(60_exceptions.md R87, R91, R92), so no such operation stands here.
-/

namespace Sys2Proof.Machine

/-- `STAGE_w(n, index)` (40_highest_bit_loop.md R55). -/
def stage (n : Word) (index w : Nat) : Nat :=
  if stageTest n index w then index + w else index

/-- The stages of a list of widths, in order, each taking the index the one before produced; every stage is
performed, whatever `n` is (40_highest_bit_loop.md R55). -/
def narrow (n : Word) (index : Nat) (widths : List Nat) : Nat :=
  widths.foldl (stage n) index

/-- The widths a VARIANT probes, in descending order (00_scope.md R8, 30_encoding.md R45). -/
def widthsOf : Variant → List Nat
  | .full => [32, 16, 8, 4, 2, 1]
  | .roll => [32, 16, 8, 4, 2, 1]
  | .tab4 => [32, 16, 8, 4]
  | .tab8 => [32, 16, 8]

/-- The remaining bit of the full loop, `n >> (index + 1)`, added to the index directly
(40_highest_bit_loop.md R60, conflict C4). -/
def remainingBit (n : Word) (index : Nat) : Nat :=
  (shiftRight n (shiftAmount index 1)).toNat

/-- The last step of HB.TAB4: add `T4[n >> index]`, zero-extended (41_highest_bit_table.md R70). -/
def resolve4 (n : Word) (index : Nat) : Nat :=
  index + (romReadT4 (address4 n index)).toNat

/-- The last step of HB.TAB8: add `T8[n >> index]`, zero-extended (41_highest_bit_table.md R71). -/
def resolve8 (n : Word) (index : Nat) : Nat :=
  index + (romReadT8 (address8 n index)).toNat

/-- The environment presents a value on port `n` (70_reset_and_hazards.md R112). The block never drives it
(10_state.md R19). -/
def State.present (s : State) (n : Word) : State :=
  { s with env := { s.env with n := n } }

/-- The environment reads `idx` as the result of the value it drives (70_reset_and_hazards.md R106, R111). -/
def State.observe (s : State) (idx : Index) : State :=
  { s with env := { s.env with readings := s.env.readings ++ [⟨s.env.n, idx⟩] } }

/-- One evaluation, as an interaction: the environment presents the operand, the block presents the result, the
environment reads it, and the block remembers nothing (00_scope.md R10, 70_reset_and_hazards.md R112). -/
def State.evaluation (s : State) (n : Word) (idx : Index) : State :=
  (s.present n).observe idx

end Sys2Proof.Machine
end

