-- ==== Sys2Proof/Machine/Loop.lean ====
section
/-!
DEFINITION. The two loop variants, HB.FULL and HB.ROLL (40_highest_bit_loop.md section 3). Neither reads a table,
writes a flag or raises an exception.
-/

namespace Sys2Proof.Machine

/-- The result of HB.FULL: five stages written out, then the remaining bit added to the index
(40_highest_bit_loop.md R60). -/
def evalFull (n : Word) : Index :=
  let i0 := 0
  let i1 := stage n i0 32
  let i2 := stage n i1 16
  let i3 := stage n i2 8
  let i4 := stage n i3 4
  let i5 := stage n i4 2
  let r := remainingBit n i5
  let i6 := i5 + r
  toPort i6

/-- HB.FULL (40_highest_bit_loop.md R60). -/
def execHbFull (n : Word) (s : State) : Host.Outcome State Fault Refusal :=
  .next (s.evaluation n (evalFull n))

/-- The result of HB.ROLL: one loop body over the six widths (40_highest_bit_loop.md R61). -/
def evalRoll (n : Word) : Index :=
  toPort (narrow n 0 [32, 16, 8, 4, 2, 1])

/-- HB.ROLL (40_highest_bit_loop.md R61). -/
def execHbRoll (n : Word) (s : State) : Host.Outcome State Fault Refusal :=
  .next (s.evaluation n (evalRoll n))

end Sys2Proof.Machine
end

