-- ==== Sys2Proof/Machine/TableAssisted.lean ====
section
/-!
DEFINITION. The two table-assisted variants, HB.TAB4 and HB.TAB8 (41_highest_bit_table.md section 2): the first
stages of the list, then one table read. Neither writes a flag or raises an exception.
-/

namespace Sys2Proof.Machine

/-- The result of HB.TAB4: four stages, then one entry of `T4` (41_highest_bit_table.md R70). -/
def evalTab4 (n : Word) : Index :=
  toPort (resolve4 n (narrow n 0 [32, 16, 8, 4]))

/-- HB.TAB4 (41_highest_bit_table.md R70). -/
def execHbTab4 (n : Word) (s : State) : Host.Outcome State Fault Refusal :=
  .next (s.evaluation n (evalTab4 n))

/-- The result of HB.TAB8: three stages, then one entry of `T8` (41_highest_bit_table.md R71). -/
def evalTab8 (n : Word) : Index :=
  toPort (resolve8 n (narrow n 0 [32, 16, 8]))

/-- HB.TAB8 (41_highest_bit_table.md R71). -/
def execHbTab8 (n : Word) (s : State) : Host.Outcome State Fault Refusal :=
  .next (s.evaluation n (evalTab8 n))

end Sys2Proof.Machine
end

