-- ==== Sys2Proof/Machine/Dispatch.lean ====
section
/-!
DEFINITION. The dispatch: one arm per row of spec/opcode_table.json, one direct call of its meaning.
-/

namespace Sys2Proof.Machine

/-- One evaluation of an operation: always a next state (60_exceptions.md R87, R100). The operand is presented on port
`n` and is then the value on `n` (00_scope.md R10). The operation is the one its constructor names, whatever the
VARIANT of `s`; `step` is what selects by VARIANT (DESIGN CHOICE, log 8). -/
def exec (i : Instr) (s : State) : Host.Outcome State Fault Refusal :=
  match i with
  | .hbFull n => Sys2Proof.Machine.execHbFull n s
  | .hbRoll n => Sys2Proof.Machine.execHbRoll n s
  | .hbTab4 n => Sys2Proof.Machine.execHbTab4 n s
  | .hbTab8 n => Sys2Proof.Machine.execHbTab8 n s

end Sys2Proof.Machine
end

