-- ==== Sys2Proof/Machine/Step.lean ====
section
/-!
DEFINITION. One step of the block: one evaluation of the value on port `n` (00_scope.md R10, 10_state.md R15).
-/

namespace Sys2Proof.Machine

/-- One evaluation: VARIANT selects the row, the whole word on port `n` is its operand
(30_encoding.md R46), and the environment reads the result. No precondition (00_scope.md R10). -/
def step (s : State) : Host.Outcome State Fault Refusal :=
  exec (decodeWord s.block.variant s.env.n) s

/-- The environment presents the word `w` on port `n`, where the next step takes its operand (DESIGN CHOICE, log 4).
VARIANT is left as the block is built (00_scope.md R8; DESIGN CHOICE, log 6). What is not a word of 64 bits is no input
of the block (30_encoding.md R49); of such a word nothing is presented, and port `n` keeps its value
(DESIGN CHOICE, log 7). -/
def State.withFetchWord (s : State) (nbits w : Nat) : State :=
  match hostWord nbits w with
  | some word => s.present word
  | none => s

end Sys2Proof.Machine
end

