-- ==== Sys2Proof/Machine/Function.lean ====
section
/-!
DEFINITION. The function `HB` the block must compute (40_highest_bit_loop.md R53), written from its definition and
from no algorithm, and the block as a function of VARIANT and operand (00_scope.md R10). No meaning uses `HB`:
that each variant computes it is stated and proved, not built in.
-/

namespace Sys2Proof.Machine

/-- The largest `i < k` with `n[i] = 1`, if there is one. -/
def highestSetBelow (n : Word) : Nat → Option Nat
  | 0 => none
  | k + 1 => if n.getLsbD k then some k else highestSetBelow n k

/-- `HB(n)`: the largest `i` in 0..63 with `n[i] = 1`, and 0 when no bit is 1 (40_highest_bit_loop.md R53, R62). -/
def HB (n : Word) : Nat :=
  (highestSetBelow n 64).getD 0

/-- The block as a pure function, by the algorithm VARIANT selects (00_scope.md R10). -/
def highestBit (v : Variant) (n : Word) : Index :=
  match v with
  | .full => evalFull n
  | .roll => evalRoll n
  | .tab4 => evalTab4 n
  | .tab8 => evalTab8 n

/-- Output port `idx`: what the block presents for the value now on port `n`. It is computed, not stored, and follows
`n` with no step in between (10_state.md R20, R22, 70_reset_and_hazards.md R103; DEDUCED, log 5). -/
def State.idx (s : State) : Index :=
  highestBit s.block.variant s.env.n

end Sys2Proof.Machine
end

