-- ==== Sys2Proof/Machine/Elaborate.lean ====
section
/-!
DEFINITION. Building a block: the only place where anything is refused (60_exceptions.md R100). VARIANT is fixed
here and never again (00_scope.md R8); an input that is not a two-valued 64-bit vector is refused
(70_reset_and_hazards.md R108).
-/

namespace Sys2Proof.Machine

/-- The bit a level stands for, none outside the two-valued model (70_reset_and_hazards.md R108). -/
def levelBit : Level → Option Bool
  | .low => some false
  | .high => some true
  | .unknown => none
  | .highZ => none
  | .metastable => none

/-- The lowest wire whose level is neither 0 nor 1, numbering from `at_`. -/
def firstUndefined (at_ : Nat) : List Level → Option Nat
  | [] => none
  | l :: ls => if (levelBit l).isNone then some at_ else firstUndefined (at_ + 1) ls

/-- The value on wires that are all 0 or 1, the first of weight 1 (30_encoding.md R40). -/
def wiresValue : List Level → Nat
  | [] => 0
  | l :: ls => ((levelBit l).getD false).toNat + 2 * wiresValue ls

/-- A block built with a VARIANT number and the levels on its input wires: refused for a VARIANT outside 0..3, for
a port of other than 64 wires, and for an X, Z or metastable wire, in that order (DESIGN CHOICE, log 11); else the
block, with an environment that drives the wires' value on `n` and has read nothing. -/
def build (b : Setup) : Host.Outcome State Fault Refusal :=
  match variantOfNumber b.variantNumber with
  | none => .refused (.variantOutOfRange b.variantNumber)
  | some v =>
    if b.wires.length = 64 then
      match firstUndefined 0 b.wires with
      | some wire => .refused (.inputNotTwoValued wire)
      | none =>
        .next { block := { variant := v }, env := { n := BitVec.ofNat 64 (wiresValue b.wires), readings := [] } }
    else .refused (.wrongWireCount b.wires.length)

end Sys2Proof.Machine
end

