-- ==== Sys2Proof/Machine/FunctionLaws.lean ====
section
/-!
DEFINITION. The further laws of `HB` the spec offers as model checks (40_highest_bit_loop.md R67), each a check that can
be evaluated on any input. `FunctionLawsHold` states them of every input.
-/

namespace Sys2Proof.Machine

/-- Monotone: `n <= m` implies `HB(n) <= HB(m)` (40_highest_bit_loop.md R67). -/
def lawMonotone (n m : Word) : Bool :=
  decide (n.toNat ≤ m.toNat → HB n ≤ HB m)

/-- `2^k <= n < 2^(k+1)`. -/
def brackets (n : Word) (k : Nat) : Bool :=
  decide (2 ^ k ≤ n.toNat ∧ n.toNat < 2 ^ (k + 1))

/-- Bracketing: for `n != 0`, `HB(n)` brackets `n`, and no other value in 0..63 does (40_highest_bit_loop.md R67). -/
def lawBracketing (n : Word) : Bool :=
  n == 0#64 || (List.range 64).all fun k => brackets n k == (k == HB n)

/-- Set bit: for `n != 0`, `n[HB(n)] = 1` and `n[j] = 0` for all `j > HB(n)` (40_highest_bit_loop.md R67). -/
def lawSetBit (n : Word) : Bool :=
  n == 0#64 || (n.getLsbD (HB n) && (List.range 64).all fun j => decide (j ≤ HB n) || !n.getLsbD j)

/-- Shift: for `n != 0` and `0 <= s <= HB(n)`, `HB(n >> s) = HB(n) - s` (40_highest_bit_loop.md R67). -/
def lawShift (n : Word) (s : Nat) : Bool :=
  n == 0#64 || decide (HB n < s) || HB (n >>> s) == HB n - s

/-- Halving: for `n >= 2`, `HB(n) = HB(n >> 1) + 1`; `HB(1) = HB(0) = 0` (40_highest_bit_loop.md R67). -/
def lawHalving (n : Word) : Bool :=
  if 2 ≤ n.toNat then HB n == HB (n >>> 1) + 1 else HB n == 0

/-- The least input that gives `k`: 0 for 0, and `2^k` for `k >= 1` (40_highest_bit_loop.md R67, Fibre sizes). -/
def fibreFirst (k : Nat) : Nat :=
  if k = 0 then 0 else 2 ^ k

/-- How many inputs give `k`: 2 for 0, and `2^k` for `k >= 1` (40_highest_bit_loop.md R67, Fibre sizes). -/
def fibreSize (k : Nat) : Nat :=
  if k = 0 then 2 else 2 ^ k

/-- Fibre sizes: `n` gives `k` exactly when it is one of the `fibreSize k` inputs from `fibreFirst k` on
(40_highest_bit_loop.md R67). -/
def lawFibre (n : Word) (k : Nat) : Bool :=
  (HB n == k) == decide (fibreFirst k ≤ n.toNat ∧ n.toNat < fibreFirst k + fibreSize k)

/-- OR: `HB(a | b) = max(HB(a), HB(b))` (40_highest_bit_loop.md R67). -/
def lawOr (a b : Word) : Bool :=
  HB (a ||| b) == max (HB a) (HB b)

/-- The seven laws on the inputs `n` and `m`, every shift amount and every result (40_highest_bit_loop.md R67). -/
def functionLaws (n m : Word) : Bool :=
  lawMonotone n m && lawBracketing n && lawSetBit n && (List.range 64).all (lawShift n) && lawHalving n &&
    (List.range 64).all (lawFibre n) && lawOr n m

end Sys2Proof.Machine
end

