-- ==== Sys2Proof/Machine/Instances.lean ====
section
/-!
DEFINITION. Several instances of the block (60_exceptions.md R98, D18): independent, of the same or of different
VARIANT, sharing only constants.
-/

namespace Sys2Proof.Machine

/-- Every block of a list evaluates what is on its own port `n` (60_exceptions.md R98; DESIGN CHOICE, log 15). -/
def stepInstances : List State → Host.Outcome (List State) Fault Refusal
  | [] => .next []
  | s :: ss =>
    match step s, stepInstances ss with
    | .next t, .next ts => .next (t :: ts)
    | .fault f, _ => .fault f
    | .refused r, _ => .refused r
    | .next _, .fault f => .fault f
    | .next _, .refused r => .refused r

end Sys2Proof.Machine
end

