-- ==== Sys2Proof/Machine/Stimulus.lean ====
section
/-!
DEFINITION. Stimulus lists: the expansion of the pseudo-operations (30_encoding.md R51) and a run, whose end state is
the list of results (70_reset_and_hazards.md R111).
-/

namespace Sys2Proof.Machine

/-- The operations a line stands for: `HB` is HB.ROLL, `HB.ALL` the four on one operand (30_encoding.md R51). -/
def expand : Stimulus → List Instr
  | .op i => [i]
  | .hb n => [.hbRoll n]
  | .hbAll n => [.hbFull n, .hbRoll n, .hbTab4 n, .hbTab8 n]

/-- Operations applied in order. The results are the readings this adds to the environment's, in line order
(70_reset_and_hazards.md R111; DESIGN CHOICE, log 14). -/
def runInstrs : List Instr → State → Host.Outcome State Fault Refusal
  | [], s => .next s
  | i :: is, s =>
    match exec i s with
    | .next t => runInstrs is t
    | .fault f => .fault f
    | .refused r => .refused r

/-- A stimulus list, its pseudo-operations expanded, applied in order. -/
def runStimuli (ls : List Stimulus) (s : State) : Host.Outcome State Fault Refusal :=
  runInstrs (ls.flatMap expand) s

/-- The results the environment has read, the end state of a run (70_reset_and_hazards.md R111). -/
def State.results (s : State) : List Index :=
  s.env.readings.map Reading.idx

end Sys2Proof.Machine
end

