-- ==== Sys2Proof/Machine/StimulusText.lean ====
section
/-!
DEFINITION. The written form of stimulus lines (30_encoding.md R51) as lists of characters: a reader, total and
refusing by name, a writer, and the two ways a result is shown. What the spec's one line of grammar leaves open
(case of digits, spaces, comments) is DESIGN CHOICE, log 13.
-/

namespace Sys2Proof.Machine

/-- Why a text is no stimulus line. -/
inductive LineError where
  /-- The first word is none of the six mnemonics. -/
  | unknownMnemonic (word : List Char)
  /-- The operand does not begin with `0x`. -/
  | operandNotHex
  /-- The operand has fewer than 16 digits. -/
  | operandTooShort
  /-- A character among the 16 digits is no hexadecimal digit. -/
  | notADigit (c : Char)
  /-- `highest_bit(` is not closed after its operand. -/
  | notClosed
  /-- Something other than spaces and a comment follows the operand. -/
  | trailingText
  deriving DecidableEq, Repr

/-- The written mnemonics (30_encoding.md R46, R51). -/
def textFull : List Char := ['H', 'B', '.', 'F', 'U', 'L', 'L']
/-- HB.ROLL, written. -/
def textRoll : List Char := ['H', 'B', '.', 'R', 'O', 'L', 'L']
/-- HB.TAB4, written. -/
def textTab4 : List Char := ['H', 'B', '.', 'T', 'A', 'B', '4']
/-- HB.TAB8, written. -/
def textTab8 : List Char := ['H', 'B', '.', 'T', 'A', 'B', '8']
/-- The pseudo-operation HB, written. -/
def textHb : List Char := ['H', 'B']
/-- The pseudo-operation HB.ALL, written. -/
def textAll : List Char := ['H', 'B', '.', 'A', 'L', 'L']
/-- The other spelling of HB, up to its operand. -/
def textCall : List Char := ['h', 'i', 'g', 'h', 'e', 's', 't', '_', 'b', 'i', 't', '(']

/-- The sixteen hexadecimal digits in order of value. -/
def hexDigitList : List Char :=
  ['0', '1', '2', '3', '4', '5', '6', '7', '8', '9', 'A', 'B', 'C', 'D', 'E', 'F']

/-- The digit of a value below 16. -/
def hexDigit (d : Nat) : Char :=
  hexDigitList.getD d '0'

/-- The value of a hexadecimal digit, in either case (DESIGN CHOICE, log 13). -/
def hexValue (c : Char) : Option Nat :=
  let k := c.toNat
  if 48 ≤ k ∧ k ≤ 57 then some (k - 48)
  else if 65 ≤ k ∧ k ≤ 70 then some (k - 55)
  else if 97 ≤ k ∧ k ≤ 102 then some (k - 87)
  else none

/-- The low `k` hexadecimal digits of a number, most significant first. -/
def hexDigits : Nat → Nat → List Char
  | 0, _ => []
  | k + 1, m => hexDigit (m / 16 ^ k % 16) :: hexDigits k m

/-- The written operand: `0x` and exactly 16 digits, most significant first (30_encoding.md R51). -/
def operandText (n : Word) : List Char :=
  '0' :: 'x' :: hexDigits 16 n.toNat

/-- Reads `k` digits into a value that already holds the digits before them. -/
def readDigits : Nat → Nat → List Char → Except LineError (Nat × List Char)
  | 0, acc, cs => .ok (acc, cs)
  | _ + 1, _, [] => .error .operandTooShort
  | k + 1, acc, c :: cs =>
    match hexValue c with
    | none => .error (.notADigit c)
    | some d => readDigits k (16 * acc + d) cs

/-- Reads an operand and gives the text after it. -/
def readOperand (cs : List Char) : Except LineError (Word × List Char) :=
  match cs with
  | '0' :: 'x' :: rest =>
    match readDigits 16 0 rest with
    | .ok (value, after) => .ok (BitVec.ofNat 64 value, after)
    | .error e => .error e
  | _ => .error .operandNotHex

/-- Only spaces, then perhaps a comment from `;` on. -/
def endsLine : List Char → Bool
  | [] => true
  | c :: cs => if c == ' ' then endsLine cs else c == ';'

/-- The line a mnemonic begins, none for any other word. -/
def lineOf (word : List Char) (n : Word) : Option Stimulus :=
  if word = textFull then some (.op (.hbFull n))
  else if word = textRoll then some (.op (.hbRoll n))
  else if word = textTab4 then some (.op (.hbTab4 n))
  else if word = textTab8 then some (.op (.hbTab8 n))
  else if word = textHb then some (.hb n)
  else if word = textAll then some (.hbAll n)
  else none

/-- Reads `<mnemonic> <operand>`. -/
def readPlain (cs : List Char) : Except LineError Stimulus :=
  let word := cs.takeWhile (· != ' ')
  match lineOf word 0#64 with
  | none => .error (.unknownMnemonic word)
  | some _ =>
    match readOperand ((cs.dropWhile (· != ' ')).dropWhile (· == ' ')) with
    | .error e => .error e
    | .ok (n, after) =>
      if endsLine after then
        match lineOf word n with
        | some l => .ok l
        | none => .error (.unknownMnemonic word)
      else .error .trailingText

/-- Reads `<operand>)` after `highest_bit(`. -/
def readCall (cs : List Char) : Except LineError Stimulus :=
  match readOperand cs with
  | .error e => .error e
  | .ok (n, ')' :: after) => if endsLine after then .ok (.hb n) else .error .trailingText
  | .ok (_, _) => .error .notClosed

/-- Reads one stimulus line (30_encoding.md R51). -/
def readLine (cs : List Char) : Except LineError Stimulus :=
  if textCall.isPrefixOf cs then readCall (cs.drop textCall.length) else readPlain cs

/-- Reads the lines of a stimulus list, stopping at the first that is none. -/
def readLines : List (List Char) → Except LineError (List Stimulus)
  | [] => .ok []
  | l :: ls =>
    match readLine l with
    | .error e => .error e
    | .ok first =>
      match readLines ls with
      | .error e => .error e
      | .ok others => .ok (first :: others)

/-- The mnemonic of a line. -/
def mnemonicText : Stimulus → List Char
  | .op (.hbFull _) => textFull
  | .op (.hbRoll _) => textRoll
  | .op (.hbTab4 _) => textTab4
  | .op (.hbTab8 _) => textTab8
  | .hb _ => textHb
  | .hbAll _ => textAll

/-- The operand of a line. -/
def lineOperand : Stimulus → Word
  | .op i => i.operand
  | .hb n => n
  | .hbAll n => n

/-- A stimulus line, written (30_encoding.md R51). -/
def lineText (l : Stimulus) : List Char :=
  mnemonicText l ++ ' ' :: operandText (lineOperand l)

/-- A result in decimal (30_encoding.md R51). -/
def decimalText (idx : Index) : List Char :=
  if idx.toNat < 10 then [hexDigit idx.toNat]
  else [hexDigit (idx.toNat / 10), hexDigit (idx.toNat % 10)]

/-- A result as the six binary digits `idx[5]` to `idx[0]` (30_encoding.md R51). -/
def binaryText (idx : Index) : List Char :=
  [5, 4, 3, 2, 1, 0].map fun k => if idx.getLsbD k then '1' else '0'

/-- A list of results as the demonstration harness prints it: decimal, in line order, with commas
(30_encoding.md R52). -/
def harnessText : List Index → List Char
  | [] => []
  | [r] => decimalText r
  | r :: rs => decimalText r ++ ',' :: harnessText rs

end Sys2Proof.Machine
end

