-- ==== Sys2Proof/Machine/Trace.lean ====
section
/-!
DEFINITION. The local values of one evaluation, as a record a claim can speak of (10_state.md R21): the stages
performed, with their shift amounts, tests and indices, and the table read if there is one. No port shows them,
and nothing outlives the evaluation.
-/

namespace Sys2Proof.Machine

/-- One stage as performed (40_highest_bit_loop.md R55; the columns of 95_test_vectors.md section 3.1). -/
structure StageRecord where
  width       : Nat
  indexBefore : Nat
  shift       : Nat
  shifted     : Word
  test        : Bool
  indexAfter  : Nat
  deriving DecidableEq, Repr

/-- One RomRead as performed (20_memory.md R30). -/
structure TableRead where
  table   : Table
  address : Nat
  entry   : Nat
  deriving DecidableEq, Repr

/-- One evaluation: its stages in order, its table read, its result. -/
structure Trace where
  stages : List StageRecord
  read   : Option TableRead
  idx    : Index
  deriving DecidableEq, Repr

/-- The record of the stage of width `w` entered with `index`. -/
def stageRecord (n : Word) (index w : Nat) : StageRecord :=
  { width := w
    indexBefore := index
    shift := shiftAmount index w
    shifted := shiftRight n (shiftAmount index w)
    test := stageTest n index w
    indexAfter := stage n index w }

/-- The records of a list of stages, each entered with the index the one before left. -/
def stageRecords (n : Word) (index : Nat) : List Nat → List StageRecord
  | [] => []
  | w :: ws => stageRecord n index w :: stageRecords n (stage n index w) ws

/-- The table read of a VARIANT entered with `index`: none for the loop variants (20_memory.md R30). -/
def tableRead (v : Variant) (n : Word) (index : Nat) : Option TableRead :=
  match v with
  | .full => none
  | .roll => none
  | .tab4 => some ⟨.t4, (address4 n index).toNat, (romReadT4 (address4 n index)).toNat⟩
  | .tab8 => some ⟨.t8, (address8 n index).toNat, (romReadT8 (address8 n index)).toNat⟩

/-- The trace of one evaluation under VARIANT `v`. -/
def traceOf (v : Variant) (n : Word) : Trace :=
  { stages := stageRecords n 0 (widthsOf v)
    read := tableRead v n (narrow n 0 (widthsOf v))
    idx := highestBit v n }

/-- The stage tests of a trace, in stage order: t32, t16, t8, … (40_highest_bit_loop.md R56). -/
def Trace.tests (t : Trace) : List Bool :=
  t.stages.map StageRecord.test

/-- The comparisons of an evaluation (41_highest_bit_table.md R75). -/
def Trace.comparisons (t : Trace) : Nat :=
  t.stages.length

/-- The table reads of an evaluation (41_highest_bit_table.md R75, 20_memory.md R30). -/
def Trace.tableReads (t : Trace) : Nat :=
  t.read.toList.length

end Sys2Proof.Machine
end

