-- ==== Sys2Proof/Machine/Tree.lean ====
section
/-!
DEFINITION. The structures the name clz_reduction_tree stands for (42_reduction_tree.md): the window form of the
stage test, the top-down multiplexer tree, the bottom-up reduction tree, and the leading-zero view. They add no
behaviour: each is stated equal to `HB`. No port shows any of them (R80, R85).
-/

namespace Sys2Proof.Machine

/-- The window test: the OR of bits `i + w` to `i + 2w - 1` of `n` (42_reduction_tree.md R77). -/
def windowTest (n : Word) (i w : Nat) : Bool :=
  n.extractLsb' (i + w) w != 0#w

/-- One level of the top-down tree on a window of `w + w` bits: whether its upper half is non-zero, and the half
kept (42_reduction_tree.md R78). -/
def keepHalf {w : Nat} (v : BitVec (w + w)) : Bool × BitVec w :=
  let hi := v.extractLsb' w w
  let lo := v.extractLsb' 0 w
  let t := hi != 0#w
  (t, if t then hi else lo)

/-- What the top-down tree computes: its six tests, and the windows of 8 and 4 bits, which are the table
addresses of HB.TAB8 and HB.TAB4 (42_reduction_tree.md R78). -/
structure TopDown where
  t32 : Bool
  t16 : Bool
  t8  : Bool
  t4  : Bool
  t2  : Bool
  t1  : Bool
  v8  : Address8
  v4  : Address4
  deriving DecidableEq, Repr

/-- `TREE_TD(n)` (42_reduction_tree.md R78). -/
def topDown (n : Word) : TopDown :=
  let l32 := keepHalf (w := 32) n
  let l16 := keepHalf (w := 16) l32.2
  let l8 := keepHalf (w := 8) l16.2
  let l4 := keepHalf (w := 4) l8.2
  let l2 := keepHalf (w := 2) l4.2
  { t32 := l32.1, t16 := l16.1, t8 := l8.1, t4 := l4.1, t2 := l2.1, t1 := l2.2.getLsbD 1
    v8 := l8.2, v4 := l4.2 }

/-- Six bits as an index, the first most significant (00_scope.md R11, concatenation). -/
def bits6 (b5 b4 b3 b2 b1 b0 : Bool) : Index :=
  BitVec.ofBool b5 ++ BitVec.ofBool b4 ++ BitVec.ofBool b3 ++ BitVec.ofBool b2 ++ BitVec.ofBool b1 ++
    BitVec.ofBool b0

/-- The result of the top-down tree, `{t32, t16, t8, t4, t2, t1}` (42_reduction_tree.md R78). -/
def treeTopDown (n : Word) : Index :=
  let t := topDown n
  bits6 t.t32 t.t16 t.t8 t.t4 t.t2 t.t1

/-- The reduction tree over a block of `2^L` bits (42_reduction_tree.md R79). -/
inductive ReductionTree : Nat → Type where
  | leaf (b : Bool) : ReductionTree 0
  | node {L : Nat} (hi lo : ReductionTree L) : ReductionTree (L + 1)
  deriving DecidableEq, Repr

/-- The tree over the aligned block of `n` of `2^L` bits that starts at bit `base`. -/
def treeOver (n : Word) : (L : Nat) → (base : Nat) → ReductionTree L
  | 0, base => .leaf (n.getLsbD base)
  | L + 1, base => .node (treeOver n L (base + 2 ^ L)) (treeOver n L base)

/-- The pair a block gives: whether any bit of it is 1, and the `L`-bit position of its highest 1 bit
(42_reduction_tree.md R79). -/
structure AnyPos (L : Nat) where
  any : Bool
  pos : BitVec L
  deriving DecidableEq, Repr

/-- The node rule of the reduction tree (42_reduction_tree.md R79). -/
def combine {L : Nat} (hi lo : AnyPos L) : AnyPos (L + 1) :=
  { any := hi.any || lo.any
    pos := if hi.any then BitVec.cons true hi.pos else BitVec.cons false lo.pos }

/-- The value of a reduction tree, leaves first (42_reduction_tree.md R79). -/
def reduceTree : {L : Nat} → ReductionTree L → AnyPos L
  | _, .leaf b => { any := b, pos := 0#0 }
  | _, .node hi lo => combine (reduceTree hi) (reduceTree lo)

/-- The root of the tree over the whole of `n`: `(any_root, pos_root)` (42_reduction_tree.md R79, R80). -/
def treeRoot (n : Word) : AnyPos 6 :=
  reduceTree (treeOver n 6 0)

/-- The root's `any` bit in the top-down form, `t32 | t16 | t8 | t4 | t2 | t1 | n[0]`. No port carries it
(42_reduction_tree.md R80). -/
def topDownAny (n : Word) : Bool :=
  let t := topDown n
  t.t32 || t.t16 || t.t8 || t.t4 || t.t2 || t.t1 || n.getLsbD 0

/-- The same bit in the stage form: the OR of the six stage tests of the loop and of `n[0]`. No port carries it
(42_reduction_tree.md R80). -/
def stageAny (n : Word) : Bool :=
  (traceOf .roll n).tests.any id || n.getLsbD 0

/-- Leaves of a reduction tree (42_reduction_tree.md R79). -/
def leafCount : {L : Nat} → ReductionTree L → Nat
  | _, .leaf _ => 1
  | _, .node hi lo => leafCount hi + leafCount lo

/-- Nodes of a reduction tree (42_reduction_tree.md R79). -/
def nodeCount : {L : Nat} → ReductionTree L → Nat
  | _, .leaf _ => 0
  | _, .node hi lo => 1 + nodeCount hi + nodeCount lo

/-- Levels of nodes of a reduction tree (42_reduction_tree.md R79). -/
def treeDepth : {L : Nat} → ReductionTree L → Nat
  | _, .leaf _ => 0
  | _, .node hi lo => 1 + max (treeDepth hi) (treeDepth lo)

/-- The leading-zero view of a result, `63 - idx`; the leading-zero count of `n` only where `n` is not 0
(42_reduction_tree.md R83 to R85). -/
def leadingZeroView (idx : Index) : Index :=
  63#6 - idx

/-- The 0 bits of `n` above bit `k` downwards: how many of bits `k - 1`, `k - 2`, … are 0 before the first 1. -/
def zerosBelow (n : Word) : Nat → Nat
  | 0 => 0
  | k + 1 => if n.getLsbD k then 0 else 1 + zerosBelow n k

/-- The number of leading zeros of a 64-bit word, 64 for 0 (42_reduction_tree.md R83, R84; the usual definition,
which the spec marks as general knowledge). -/
def leadingZeros (n : Word) : Nat :=
  zerosBelow n 64

/-- Law (a) on one input: `TREE_TD(n) = HB(n)` (42_reduction_tree.md R86). -/
def lawTopDown (n : Word) : Bool :=
  (treeTopDown n).toNat == HB n

/-- Law (b) on one input: `pos_root(n) = HB(n)` and `any_root(n) = (n != 0)` (42_reduction_tree.md R86). -/
def lawRoot (n : Word) : Bool :=
  (treeRoot n).pos.toNat == HB n && (treeRoot n).any == anySet n

/-- Law (c) on one input: the window identity at each of the six stages (42_reduction_tree.md R77, R86). -/
def lawWindows (n : Word) : Bool :=
  (traceOf .roll n).stages.all fun r => r.test == windowTest n r.indexBefore r.width

/-- Law (d) on one input: for `n != 0`, `63 - HB(n)` is `~HB(n)` on 6 bits and the number of leading zeros
(42_reduction_tree.md R83, R86). -/
def lawLeadingZeros (n : Word) : Bool :=
  !anySet n ||
    (BitVec.ofNat 6 (63 - HB n) == ~~~ BitVec.ofNat 6 (HB n) && 63 - HB n == leadingZeros n)

/-- The four laws a model should prove of the trees, as a check that can be evaluated on any input
(42_reduction_tree.md R86). -/
def structureLaws (n : Word) : Bool :=
  lawTopDown n && lawRoot n && lawWindows n && lawLeadingZeros n

end Sys2Proof.Machine
end

