-- ==== Sys2Proof/Safety.lean ====
section
/-!
DEFINITION. What counts as a safe run of the block: every outcome is a next state (60_exceptions.md R100), port `idx`
carries `HB` of the value on port `n` (10_state.md R20), and whatever the environment has read was right.
-/

namespace Sys2Proof.Safety

open Sys2Proof.Machine

/-- Port `idx` carries `HB(n)` for the value now on port `n` (10_state.md R20, 70_reset_and_hazards.md R103), and every
reading so far is `HB` of its operand (70_reset_and_hazards.md R112). -/
def Settled (s : State) : Prop :=
  s.idx.toNat = HB s.env.n ∧ ∀ r ∈ s.env.readings, r.idx.toNat = HB r.operand

/-- The machine goes on: the outcome is a next state (60_exceptions.md R100). -/
def GoesOn (o : Host.Outcome State Fault Refusal) : Prop :=
  ∃ t, o = .next t

end Sys2Proof.Safety
end

