-- ==== Sys2Proof/Certificates/Slice0/Obligations.lean ====
section
/-!
DEFINITION. The statements for the provers, grouped by what they speak of. Each docstring names the rule of spec/
it rests on, and the log entry where a clause is the model's own choice.
-/

open Sys2Proof Sys2Proof.Machine Sys2Proof.Safety

/-! ### The operations: completion, result, frame -/

/-- HB.FULL and HB.ROLL (40_highest_bit_loop.md R60, R61): on every operand and in every state each answers a next
state. In it the block is unchanged, the environment drives the operand on `n` and has read one result more, which is
`HB` of the operand (R54), and nothing else differs; port `idx` carries `HB` of the operand. That the result is kept
as a reading of the environment's is the model's choice (log 12). -/
def Obligations.LoopOperationsPresentHB : Prop :=
  ∀ (n : Word) (s : State),
    (∃ t r, exec (.hbFull n) s = .next t ∧ r.toNat = HB n ∧ t.idx.toNat = HB n ∧
      t = { block := s.block, env := { n := n, readings := s.env.readings ++ [⟨n, r⟩] } }) ∧
    (∃ t r, exec (.hbRoll n) s = .next t ∧ r.toNat = HB n ∧ t.idx.toNat = HB n ∧
      t = { block := s.block, env := { n := n, readings := s.env.readings ++ [⟨n, r⟩] } })

/-- HB.TAB4 and HB.TAB8 (41_highest_bit_table.md R70 to R72): on every operand and in every state each answers a next
state. In it the block is unchanged, the environment drives the operand on `n` and has read one result more, which is
`HB` of the operand (R54), and nothing else differs; port `idx` carries `HB` of the operand. That the result is kept
as a reading of the environment's is the model's choice (log 12). -/
def Obligations.TableOperationsPresentHB : Prop :=
  ∀ (n : Word) (s : State),
    (∃ t r, exec (.hbTab4 n) s = .next t ∧ r.toNat = HB n ∧ t.idx.toNat = HB n ∧
      t = { block := s.block, env := { n := n, readings := s.env.readings ++ [⟨n, r⟩] } }) ∧
    (∃ t r, exec (.hbTab8 n) s = .next t ∧ r.toNat = HB n ∧ t.idx.toNat = HB n ∧
      t = { block := s.block, env := { n := n, readings := s.env.readings ++ [⟨n, r⟩] } })

/-- The frame of the four operations: whenever one gives a next state, no field of the block has changed (10_state.md
R13, 00_scope.md R8), port `n` has the operand, which is presented there as part of the evaluation (00_scope.md R10),
and the environment's earlier results are as before, with one more, of that operand (70_reset_and_hazards.md R111).
Neither table can change: they are no part of a state (20_memory.md R27). That `n` is a field of the environment's and
the results its list of readings is the model's choice (log 2, log 12). -/
def Obligations.OperationsLeaveBlockUnchanged : Prop :=
  ∀ (i : Instr) (s t : State), exec i s = .next t →
    t.block = s.block ∧ t.env.n = i.operand ∧
    ∃ r : Reading, r.operand = i.operand ∧ t.env.readings = s.env.readings ++ [r]

/-- No operation and no step faults or is refused, and there is no fault to raise (60_exceptions.md R87, R100). -/
def Obligations.NothingStops : Prop :=
  (∀ (i : Instr) (s : State), GoesOn (exec i s)) ∧ (∀ s : State, GoesOn (step s)) ∧ IsEmpty Fault

/-- Operations on one operand are indistinguishable at the output (00_scope.md R8, 40_highest_bit_loop.md R54, R68):
whichever of the four, in whatever blocks, the result read and what port `idx` then carries are the same. That the
result is kept as a reading of the environment's is the model's choice (log 12). -/
def Obligations.SameOperandSameOutput : Prop :=
  ∀ (i j : Instr) (s u s' u' : State),
    i.operand = j.operand → exec i s = .next s' → exec j u = .next u' →
    s'.env.readings.getLast? = u'.env.readings.getLast? ∧ s'.idx = u'.idx

/-- The zero convention in every variant (40_highest_bit_loop.md R62): operand 0 gives 0, and so does operand 1. That
the result is kept as a reading of the environment's is the model's choice (log 12). -/
def Obligations.ZeroAndOneGiveZero : Prop :=
  ∀ (v : Variant) (s : State),
    (∃ t, exec (decodeWord v 0#64) s = .next t ∧ t.env.readings.getLast? = some ⟨0#64, 0#6⟩ ∧ t.idx = 0#6) ∧
    (∃ t, exec (decodeWord v 1#64) s = .next t ∧ t.env.readings.getLast? = some ⟨1#64, 0#6⟩ ∧ t.idx = 0#6)

/-! ### Steps and runs -/

/-- A step runs the operation the decoder reads from VARIANT and the word on port `n` (30_encoding.md R46): there is
always one, it belongs to the block, and whichever it is, the step is its evaluation and nothing more. -/
def Obligations.StepRunsDecodedOperation : Prop :=
  ∀ s : State,
    (∃ i, decode (variantNumber s.block.variant) 64 s.env.n.toNat = .ok i ∧ i.wellFormed s.block.variant = true) ∧
    ∀ i, decode (variantNumber s.block.variant) 64 s.env.n.toNat = .ok i → step s = exec i s

/-- Model's choice (log 4, log 6, log 7): in a block of the default VARIANT, a word the host presents is run by the next
step as the operation `decodeTableWord` reads from it; presenting it changes only the value on `n`; and a word that
`decodeTableWord` does not read (one that is not of 64 bits) is not presented at all. -/
def Obligations.PresentedWordRunsNext : Prop :=
  (∀ (s : State) (nbits w : Nat) (i : Instr),
    s.block.variant = Config.defaultVariant → decodeTableWord nbits w = some i →
    step (s.withFetchWord nbits w) = exec i (s.withFetchWord nbits w) ∧
    s.withFetchWord nbits w = { s with env := { s.env with n := i.operand } }) ∧
  ∀ (s : State) (nbits w : Nat), decodeTableWord nbits w = none → s.withFetchWord nbits w = s

/-- The block as a machine (00_scope.md R10, 10_state.md R20): from every state, whatever its VARIANT, one step
answers a next state in which the environment has read one result more, `HB` of the value on `n`; block and `n` are
unchanged. That the result is kept as a reading of the environment's is the model's choice (log 12). -/
def Obligations.EveryStepPresentsHB : Prop :=
  ∀ s : State, ∃ t r, step s = .next t ∧ r.toNat = HB s.env.n ∧
    t = { block := s.block, env := { n := s.env.n, readings := s.env.readings ++ [⟨s.env.n, r⟩] } }

/-- Port `idx` is no stored value (10_state.md R20, R22, 70_reset_and_hazards.md R103): in every state it carries `HB` of
the value on `n`, and after the environment presents another value, with no step in between, `HB` of that one. -/
def Obligations.OutputFollowsInput : Prop :=
  ∀ (s : State) (n : Word), s.idx.toNat = HB s.env.n ∧ (s.present n).idx.toNat = HB n ∧ (s.present n).block = s.block

/-- The invariant of the machine: `idx` carries `HB` of the value on `n`, and every reading so far is `HB` of its
operand (10_state.md R20, 40_highest_bit_loop.md R68). A step keeps it, and leaves the block and both ports as they
are (R13). That the result is kept as a reading of the environment's is the model's choice (log 12). -/
def Obligations.StepKeepsSettled : Prop :=
  ∀ s t : State, Settled s → step s = .next t →
    Settled t ∧ t.block = s.block ∧ t.env.n = s.env.n ∧ t.idx = s.idx

/-- Right after reset the invariant holds (70_reset_and_hazards.md R103), VARIANT is the default, HB.ROLL (00_scope.md
R8), and nothing has been read. That the environment then drives 0 on `n` is the model's choice (log 3). So is the
environment's list of readings (log 12). -/
def Obligations.ResetIsSettled : Prop :=
  Settled State.reset ∧ State.reset.block.variant = .roll ∧ State.reset.env.readings = [] ∧
  State.reset.env.n = 0#64

/-- Any number of evaluations of one input present what one does (40_highest_bit_loop.md R68, 70_reset_and_hazards.md
R105): a run of `k` steps from any state goes on, and adds `k` readings, each of the value on `n` with `HB` of it.
That the result is kept as a reading of the environment's is the model's choice (log 12). -/
def Obligations.RepeatedEvaluationPresentsHB : Prop :=
  ∀ (k : Nat) (s : State), ∃ t : State,
    core.run k s = .next t ∧ t.block = s.block ∧ t.env.n = s.env.n ∧
    t.env.readings.map (fun r => (r.operand, r.idx.toNat)) =
      s.env.readings.map (fun r => (r.operand, r.idx.toNat)) ++ List.replicate k (s.env.n, HB s.env.n)

/-! ### Encoding -/

/-- Decoding the encoded word of an operation under its block's VARIANT gives it back (30_encoding.md R46). -/
def Obligations.DecodeOfEncode : Prop :=
  ∀ (v : Variant) (i : Instr), i.wellFormed v = true → decode (variantNumber v) 64 (encode i).toNat = .ok i

/-- Whatever decodes is a word of 64 bits, and was given by its own VARIANT number and its own word: no bit of the word
is dropped (30_encoding.md R39, R46, R49). -/
def Obligations.EncodeOfDecode : Prop :=
  ∀ (v nbits w : Nat) (i : Instr),
    decode v nbits w = .ok i → nbits = 64 ∧ variantNumber i.variant = v ∧ (encode i).toNat = w

/-- The only refusal of a 64-bit word is a VARIANT outside 0..3 (30_encoding.md R47, R48), by name; a word of any other
length is never an operation word (R39, R49). -/
def Obligations.OnlyVariantIsRefused : Prop :=
  (∀ v w : Nat, w < 2 ^ 64 →
    ((∃ i, decode v 64 w = .ok i) ↔ v < 4) ∧
    (4 ≤ v → decode v 64 w = .error (.variantOutOfRange v))) ∧
  ∀ v nbits w : Nat, v < 4 → nbits ≠ 64 → decode v nbits w = .error (.notSixtyFourBits nbits)

/-- A few words and what they decode to, VARIANT 0 to 3 (30_encoding.md R46). -/
def Obligations.WrittenWordsDecode : Prop :=
  decode 0 64 0x00000000000000FF = .ok (.hbFull 0x00000000000000FF#64) ∧
  decode 1 64 0x0000000000000100 = .ok (.hbRoll 0x0000000000000100#64) ∧
  decode 2 64 0x8000000000000001 = .ok (.hbTab4 0x8000000000000001#64) ∧
  decode 3 64 0x0123456789ABCDEF = .ok (.hbTab8 0x0123456789ABCDEF#64)

/-- Reading what is written: every stimulus line, written as 30_encoding.md R51 has it and followed by spaces, a
comment or nothing, is read back as itself, with every bit of its operand. The comment is the model's choice
(log 13). -/
def Obligations.WrittenLineReadsBack : Prop :=
  ∀ (l : Stimulus) (after : List Char), endsLine after = true → readLine (lineText l ++ after) = .ok l

/-! ### The function HB -/

/-- The definition of `HB` (40_highest_bit_loop.md R53): for `n != 0` the largest `i` in 0..63 with `n[i] = 1`,
equivalently `floor(log2(n))`, the one `k` with `2^k <= n < 2^(k+1)`; for `n = 0` it is 0; and the port carries it. -/
def Obligations.HBIsHighestSetBit : Prop :=
  (∀ n : Word, n ≠ 0#64 →
    HB n ≤ 63 ∧ n.getLsbD (HB n) = true ∧ (∀ j, HB n < j → n.getLsbD j = false) ∧
    HB n = Nat.log2 n.toNat ∧
    ∀ k, (2 ^ k ≤ n.toNat ∧ n.toNat < 2 ^ (k + 1)) ↔ k = HB n) ∧
  HB 0#64 = 0 ∧
  ∀ s : State, s.idx.toNat = HB s.env.n

/-- The five testable properties (40_highest_bit_loop.md R66), each for the function and for every variant. -/
def Obligations.DocumentedPropertiesHold : Prop :=
  (∀ n : Word, HB n ≤ 63) ∧
  HB 0#64 = 0 ∧
  (∀ k, k ≤ 63 → HB (BitVec.ofNat 64 (2 ^ k)) = k) ∧
  (∀ k, k ≤ 62 → HB (BitVec.ofNat 64 (2 ^ (k + 1) - 1)) = k ∧ HB (BitVec.ofNat 64 (2 ^ (k + 1))) = k + 1) ∧
  ∀ (v : Variant) (n : Word), (highestBit v n).toNat = HB n

/-- Priority (40_highest_bit_loop.md R63): under every variant only the highest 1 bit matters. -/
def Obligations.LowerBitsHaveNoEffect : Prop :=
  ∀ (v : Variant) (n m : Word), n ≠ 0#64 → m.toNat < 2 ^ HB n →
    highestBit v n = highestBit v (BitVec.ofNat 64 (2 ^ HB n) + m) ∧
    highestBit v n = highestBit v (BitVec.ofNat 64 (2 ^ HB n)) ∧
    (highestBit v n).toNat = HB n

/-- The output is monotone in the input (40_highest_bit_loop.md R67, Monotone), even across variants. -/
def Obligations.OutputIsMonotone : Prop :=
  ∀ (v u : Variant) (n m : Word), n.toNat ≤ m.toNat → (highestBit v n).toNat ≤ (highestBit u m).toNat

/-- Shifting right by at most the index lowers it by as much (40_highest_bit_loop.md R67, Shift and Halving). -/
def Obligations.ShiftLowersOutput : Prop :=
  ∀ (v : Variant) (n : Word),
    (∀ s, n ≠ 0#64 → s ≤ (highestBit v n).toNat → (highestBit v (n >>> s)).toNat = (highestBit v n).toNat - s) ∧
    (2 ≤ n.toNat → (highestBit v n).toNat = (highestBit v (n >>> 1)).toNat + 1)

/-- How many inputs give each output (40_highest_bit_loop.md R67, Fibre sizes): 2 give 0, and for `k >= 1` exactly the
`2^k` inputs from `2^k` to `2^(k+1) - 1` give `k`. -/
def Obligations.FibreSizes : Prop :=
  ∀ v : Variant,
    ((Finset.range (2 ^ 64)).filter fun m => (highestBit v (BitVec.ofNat 64 m)).toNat = 0).card = 2 ∧
    ∀ k, 1 ≤ k → k ≤ 63 →
      ((Finset.range (2 ^ 64)).filter fun m => (highestBit v (BitVec.ofNat 64 m)).toNat = k).card = 2 ^ k ∧
      ∀ n : Word, (highestBit v n).toNat = k ↔ 2 ^ k ≤ n.toNat ∧ n.toNat < 2 ^ (k + 1)

/-- The output of a union of requests is the larger output (40_highest_bit_loop.md R67, OR). -/
def Obligations.OrGivesMaximum : Prop :=
  ∀ (v : Variant) (a b : Word),
    (highestBit v (a ||| b)).toNat = max (highestBit v a).toNat (highestBit v b).toNat

/-- The seven further laws of `HB` (40_highest_bit_loop.md R67), as the model's checks, on every input: monotone,
bracketing, set bit, shift, halving, fibre sizes, OR. -/
def Obligations.FunctionLawsHold : Prop :=
  ∀ n m : Word,
    lawMonotone n m = true ∧ lawBracketing n = true ∧ lawSetBit n = true ∧ (∀ k, lawShift n k = true) ∧
    lawHalving n = true ∧ (∀ k, k ≤ 63 → lawFibre n k = true) ∧ lawOr n m = true

/-- Every output value is reached, by the power of two (10_state.md R20), and `idx[5]` is 1 exactly when some bit of
`n[63:32]` is 1 (30_encoding.md R41). -/
def Obligations.OutputRangeAndTopBit : Prop :=
  ∀ v : Variant,
    (∀ r : Index, highestBit v (BitVec.ofNat 64 (2 ^ r.toNat)) = r) ∧
    ∀ n : Word, (highestBit v n).getLsbD 5 = true ↔ ∃ j, 32 ≤ j ∧ j ≤ 63 ∧ n.getLsbD j = true

/-! ### The narrowing stages -/

/-- The invariants (I1) to (I4) of the stage list (40_highest_bit_loop.md R59), after every number of stages of every
variant: with `w` the last width performed (64 before the first) and `i` the running index. -/
def Obligations.StageListInvariants : Prop :=
  ∀ (v : Variant) (n : Word) (k : Nat), k ≤ (widthsOf v).length →
    ∀ i, i = narrow n 0 ((widthsOf v).take k) →
      2 ^ (6 - k) ∣ i ∧ i ≤ 64 - 2 ^ (6 - k) ∧
      n.toNat < 2 ^ (i + 2 ^ (6 - k)) ∧
      (n = 0#64 ∨ 2 ^ i ≤ n.toNat) ∧
      (n = 0#64 → i = 0)

/-- Shift amounts never reach 64 (40_highest_bit_loop.md R57): in every stage of every variant; the table address shifts
by at most 60 or 56; and 63 is reached, in the width-1 stage, when bit 63 or bit 62 is set. -/
def Obligations.ShiftAmountsStayInRange : Prop :=
  (∀ (v : Variant) (n : Word), ∀ r ∈ (traceOf v n).stages,
    2 * r.width ∣ r.indexBefore ∧ r.indexBefore ≤ 64 - 2 * r.width ∧
    r.shift = r.indexBefore + r.width ∧ r.width ≤ r.shift ∧ r.shift ≤ 64 - r.width ∧ r.shift ≤ 63) ∧
  (∀ n : Word, narrow n 0 (widthsOf .tab4) ≤ 60 ∧ narrow n 0 (widthsOf .tab8) ≤ 56) ∧
  ∀ n : Word, n.getLsbD 63 = true ∨ n.getLsbD 62 = true →
    ∃ r ∈ (traceOf .roll n).stages, r.width = 1 ∧ r.shift = 63

/-- The stage tests in terms of the operand (40_highest_bit_loop.md R56): `t_w = 1` iff
`(n >> index_before_stage_w) >= 2^w`, in every stage of every variant. -/
def Obligations.StageTestIsThreshold : Prop :=
  ∀ (v : Variant) (n : Word), ∀ r ∈ (traceOf v n).stages,
    r.test = true ↔ 2 ^ r.width ≤ (n >>> r.indexBefore).toNat

/-- Two variants that perform the same stage perform it on the same values (40_highest_bit_loop.md R56,
41_highest_bit_table.md R69): the stages of each are the first of HB.ROLL's. -/
def Obligations.VariantsShareStages : Prop :=
  ∀ (v : Variant) (n : Word),
    (traceOf v n).stages = (traceOf .roll n).stages.take (widthsOf v).length

/-- The tests are the output bits, most significant first (40_highest_bit_loop.md R58): all six in the loop variants;
in HB.TAB4 and HB.TAB8 the first four or three, the entry read being the other bits. -/
def Obligations.TestsAreOutputBits : Prop :=
  ∀ n : Word,
    (traceOf .full n).tests = [5, 4, 3, 2, 1, 0].map (traceOf .full n).idx.getLsbD ∧
    (traceOf .roll n).tests = [5, 4, 3, 2, 1, 0].map (traceOf .roll n).idx.getLsbD ∧
    (traceOf .tab4 n).tests = [5, 4, 3, 2].map (traceOf .tab4 n).idx.getLsbD ∧
    (∃ r, (traceOf .tab4 n).read = some r ∧ (traceOf .tab4 n).idx.toNat % 4 = r.entry) ∧
    (traceOf .tab8 n).tests = [5, 4, 3].map (traceOf .tab8 n).idx.getLsbD ∧
    ∃ r, (traceOf .tab8 n).read = some r ∧ (traceOf .tab8 n).idx.toNat % 8 = r.entry

/-- Comparisons and table reads of one evaluation, per variant (41_highest_bit_table.md R75). -/
def Obligations.ComparisonAndReadCounts : Prop :=
  ∀ n : Word,
    ((traceOf .full n).comparisons = 6 ∧ (traceOf .full n).tableReads = 0) ∧
    ((traceOf .roll n).comparisons = 6 ∧ (traceOf .roll n).tableReads = 0) ∧
    ((traceOf .tab4 n).comparisons = 4 ∧ (traceOf .tab4 n).tableReads = 1) ∧
    ((traceOf .tab8 n).comparisons = 3 ∧ (traceOf .tab8 n).tableReads = 1)

/-! ### The tables -/

/-- Contents of `T4` (20_memory.md R24): the entry at `a` is `HB(a)`, for every address. -/
def Obligations.T4HoldsHB : Prop :=
  (∀ a : Address4, (romReadT4 a).toNat = HB (a.setWidth 64)) ∧
  t4Contents.map BitVec.toNat = [0, 0, 1, 1, 2, 2, 2, 2, 3, 3, 3, 3, 3, 3, 3, 3]

/-- Contents of `T8` (20_memory.md R25): the entry at `a` is `HB(a)`, for every address; its first 16 entries are
those of `T4`. -/
def Obligations.T8HoldsHB : Prop :=
  (∀ a : Address8, (romReadT8 a).toNat = HB (a.setWidth 64)) ∧
  ∀ a : Address4, (romReadT8 (a.setWidth 8)).toNat = (romReadT4 a).toNat

/-- The table addresses lose no bit of `n >> index` and are 0 for input 0 only (20_memory.md R29,
40_highest_bit_loop.md R59, 41_highest_bit_table.md R70, R71). -/
def Obligations.TableAddressesAreInRange : Prop :=
  ∀ n : Word,
    (address4 n (narrow n 0 (widthsOf .tab4))).toNat = (n >>> narrow n 0 (widthsOf .tab4)).toNat ∧
    (address8 n (narrow n 0 (widthsOf .tab8))).toNat = (n >>> narrow n 0 (widthsOf .tab8)).toNat ∧
    (address4 n (narrow n 0 (widthsOf .tab4)) = 0#4 ↔ n = 0#64) ∧
    (address8 n (narrow n 0 (widthsOf .tab8)) = 0#8 ↔ n = 0#64)

/-- A table entry is the packed result of the stages its variant omits (41_highest_bit_table.md R74): for every `n`,
with `t4`, `t2`, `t1` the last three tests of HB.ROLL. -/
def Obligations.EntriesPackOmittedTests : Prop :=
  ∀ n : Word, ∃ t32 t16 t8 t4 t2 t1,
    (traceOf .roll n).tests = [t32, t16, t8, t4, t2, t1] ∧
    romReadT4 (address4 n (narrow n 0 (widthsOf .tab4))) = BitVec.ofBool t2 ++ BitVec.ofBool t1 ∧
    romReadT8 (address8 n (narrow n 0 (widthsOf .tab8))) =
      BitVec.ofBool t4 ++ BitVec.ofBool t2 ++ BitVec.ofBool t1

/-! ### The reduction trees and the leading-zero view -/

/-- The window form of the stage test (42_reduction_tree.md R77), at every stage of every variant. -/
def Obligations.StageTestIsWindowTest : Prop :=
  ∀ (v : Variant) (n : Word), ∀ r ∈ (traceOf v n).stages, r.test = windowTest n r.indexBefore r.width

/-- The top-down multiplexer tree (42_reduction_tree.md R78): its result is `HB(n)`, its tests are the stage tests, and
its 4-bit and 8-bit windows are the table addresses of HB.TAB4 and HB.TAB8. -/
def Obligations.TopDownTreeComputesHB : Prop :=
  ∀ n : Word,
    (treeTopDown n).toNat = HB n ∧
    [(topDown n).t32, (topDown n).t16, (topDown n).t8, (topDown n).t4, (topDown n).t2, (topDown n).t1] =
      (traceOf .roll n).tests ∧
    (topDown n).v4 = address4 n (narrow n 0 (widthsOf .tab4)) ∧
    (topDown n).v8 = address8 n (narrow n 0 (widthsOf .tab8))

/-- The bottom-up reduction tree on every block (42_reduction_tree.md R79): over the `2^L` bits of `n` from bit `base`,
aligned or not, `any` says whether the block is non-zero and `pos` is `HB` of the block, the zero convention included. -/
def Obligations.ReductionTreeComputesHB : Prop :=
  ∀ (n : Word) (L base : Nat), L ≤ 6 →
    ∀ block : Word, block = (n.extractLsb' base (2 ^ L)).setWidth 64 →
      ((reduceTree (treeOver n L base)).any = true ↔ block ≠ 0#64) ∧
      (reduceTree (treeOver n L base)).pos.toNat = HB block

/-- The shape of the reduction tree (42_reduction_tree.md R79): over a block of `2^L` bits it has `2^L` leaves,
`2^L - 1` nodes and depth `L`; so over the whole of `n` 64 leaves, 63 nodes and depth 6. -/
def Obligations.ReductionTreeShape : Prop :=
  (∀ (n : Word) (L base : Nat),
    leafCount (treeOver n L base) = 2 ^ L ∧ nodeCount (treeOver n L base) = 2 ^ L - 1 ∧
    treeDepth (treeOver n L base) = L) ∧
  ∀ n : Word, leafCount (treeOver n 6 0) = 64 ∧ nodeCount (treeOver n 6 0) = 63 ∧ treeDepth (treeOver n 6 0) = 6

/-- The four variants, the two trees and `HB` are one function (42_reduction_tree.md R81, 40_highest_bit_loop.md R54). -/
def Obligations.StructuresAreOneFunction : Prop :=
  ∀ n : Word,
    HB n = (evalFull n).toNat ∧ evalFull n = evalRoll n ∧ evalRoll n = evalTab4 n ∧ evalTab4 n = evalTab8 n ∧
    evalTab8 n = treeTopDown n ∧ treeTopDown n = (treeRoot n).pos

/-- The leading-zero view (42_reduction_tree.md R83, R84): for `n != 0`, `63 - idx` is the complement of `idx` and the
number of leading zeros; for `n = 0` it is 63 where the number of leading zeros is 64. -/
def Obligations.LeadingZeroViewHoldsOffZero : Prop :=
  (∀ (v : Variant) (n : Word), n ≠ 0#64 →
    leadingZeroView (highestBit v n) = ~~~ highestBit v n ∧
    (leadingZeroView (highestBit v n)).toNat = leadingZeros n ∧ leadingZeros n = 63 - HB n) ∧
  ∀ v : Variant, (leadingZeroView (highestBit v 0#64)).toNat = 63 ∧ leadingZeros 0#64 = 64

/-- The bit `any_root = (n != 0)` exists in every form (42_reduction_tree.md R80): in the bottom-up tree as its root's
`any`, and in the top-down and stage forms as `t32 | t16 | t8 | t4 | t2 | t1 | n[0]`. -/
def Obligations.AnyBitIsOneInEveryForm : Prop :=
  ∀ n : Word,
    ((treeRoot n).any = true ↔ n ≠ 0#64) ∧ topDownAny n = (treeRoot n).any ∧ stageAny n = (treeRoot n).any

/-- What a model should prove of the trees (42_reduction_tree.md R86): the laws (a) to (d) hold of every input. -/
def Obligations.StructureLawsHold : Prop :=
  ∀ n : Word, lawTopDown n = true ∧ lawRoot n = true ∧ lawWindows n = true ∧ lawLeadingZeros n = true

/-! ### Building, stimulus lists, several instances -/

/-- A block can be built exactly from a VARIANT in 0..3 and a two-valued 64-bit input; every other set-up is refused
(60_exceptions.md R100, 30_encoding.md R48, 70_reset_and_hazards.md R108). That an illegal VARIANT is the refusal named
even when the wires are defective too is the model's choice (log 11): the spec gives the refusals no order. -/
def Obligations.BuildRefusesExactlyIllFormed : Prop :=
  ∀ b : Setup,
    (b.wellFormed = true → ∃ s, build b = .next s) ∧
    (b.wellFormed = false → ∃ r, build b = .refused r) ∧
    (4 ≤ b.variantNumber → build b = .refused (.variantOutOfRange b.variantNumber))

/-- What is built: a block of the VARIANT named, with bit `k` of `n` 1 exactly where wire `k` is high (30_encoding.md
R40), its output `HB` of that value (70_reset_and_hazards.md R103), and nothing read yet. The environment's list of
readings is the model's choice (log 12). -/
def Obligations.BuiltBlockCarriesItsInput : Prop :=
  ∀ (b : Setup) (s : State), build b = .next s →
    variantNumber s.block.variant = b.variantNumber ∧
    (∀ k, s.env.n.getLsbD k = true ↔ b.wires[k]? = some .high) ∧
    s.env.readings = [] ∧ s.idx.toNat = HB s.env.n

/-- A stimulus list (30_encoding.md R51, 70_reset_and_hazards.md R111): from every state it is run to its end and adds its
results to those before, in line order: `HB` of each operand, four of them for a line of `HB.ALL`. The block is
unchanged. That one block stands behind all the lines (log 8, log 14), and that the results are the environment's
readings (log 12), is the model's choice. -/
def Obligations.StimulusListGivesResults : Prop :=
  ∀ (ls : List Stimulus) (s : State), ∃ t new,
    runStimuli ls s = .next t ∧ t.block = s.block ∧ t.results = s.results ++ new ∧
    new.map BitVec.toNat = ls.flatMap (fun l =>
      match l with
      | .op i => [HB i.operand]
      | .hb n => [HB n]
      | .hbAll n => List.replicate 4 (HB n))

/-- Instances are independent (60_exceptions.md R98): a list of blocks of any VARIANTs goes on as one, each block to
the state it would reach alone, its result being `HB` of its own input. That the instances are one list, stepped all
at once, is the model's choice (log 15): the spec gives them no order. So is the reading (log 12). -/
def Obligations.InstancesAreIndependent : Prop :=
  ∀ ss : List State, ∃ ts, stepInstances ss = .next ts ∧ ts.length = ss.length ∧
    ∀ (k : Nat) (s : State), ss[k]? = some s →
      ∃ t r, ts[k]? = some t ∧ step s = .next t ∧ t.env.readings = s.env.readings ++ [⟨s.env.n, r⟩] ∧
        r.toNat = HB s.env.n
end

