-- ==== Sys2Proof/Laws/State.lean ====
section
/-!
SUPPORT. One lemma per field per update of the state: what presenting a value, reading a result and a whole
evaluation change and leave alone.
-/

namespace Sys2Proof.Machine

@[simp] theorem State.present_block (s : State) (n : Word) : (s.present n).block = s.block := rfl
@[simp] theorem State.present_n (s : State) (n : Word) : (s.present n).env.n = n := rfl
@[simp] theorem State.present_readings (s : State) (n : Word) : (s.present n).env.readings = s.env.readings := rfl
@[simp] theorem State.present_self (s : State) : s.present s.env.n = s := rfl

@[simp] theorem State.observe_block (s : State) (r : Index) : (s.observe r).block = s.block := rfl
@[simp] theorem State.observe_n (s : State) (r : Index) : (s.observe r).env.n = s.env.n := rfl
@[simp] theorem State.observe_readings (s : State) (r : Index) :
    (s.observe r).env.readings = s.env.readings ++ [⟨s.env.n, r⟩] := rfl

@[simp] theorem State.evaluation_block (s : State) (n : Word) (r : Index) : (s.evaluation n r).block = s.block := rfl
@[simp] theorem State.evaluation_n (s : State) (n : Word) (r : Index) : (s.evaluation n r).env.n = n := rfl
@[simp] theorem State.evaluation_readings (s : State) (n : Word) (r : Index) :
    (s.evaluation n r).env.readings = s.env.readings ++ [⟨n, r⟩] := rfl

@[simp] theorem State.reset_variant : State.reset.block.variant = .roll := rfl
@[simp] theorem State.reset_n : State.reset.env.n = 0#64 := rfl
@[simp] theorem State.reset_readings : State.reset.env.readings = [] := rfl

end Sys2Proof.Machine
end

