-- ==== Sys2Proof/Laws/Exec.lean ====
section
/-!
SUPPORT. What an operation, a step and a run can do, said once: they go on, leave the block alone, and add readings.
-/

namespace Sys2Proof.Machine

/-- Everything an operation can do: an evaluation of its operand, with the result of its own algorithm. -/
theorem exec_eq (i : Instr) (s : State) :
    exec i s = .next (s.evaluation i.operand (highestBit i.variant i.operand)) := by
  cases i <;> rfl

@[simp] theorem decodeWord_variant (v : Variant) (w : Word) : (decodeWord v w).variant = v := by
  cases v <;> rfl

@[simp] theorem decodeWord_operand (v : Variant) (w : Word) : (decodeWord v w).operand = w := by
  cases v <;> rfl

/-- An operation is the row its VARIANT selects, with its operand. -/
@[simp] theorem decodeWord_self (i : Instr) : decodeWord i.variant i.operand = i := by
  cases i <;> rfl

/-- Everything a step can do: the environment reads what port `idx` carries. -/
theorem step_eq (s : State) : step s = .next (s.observe s.idx) := by
  rw [step, exec_eq, decodeWord_variant, decodeWord_operand]
  rfl

/-- The output port after a value is presented is the block's function of it. -/
@[simp] theorem State.present_idx (s : State) (n : Word) : (s.present n).idx = highestBit s.block.variant n := rfl

/-- Reading the output port does not change it. -/
@[simp] theorem State.observe_idx (s : State) (r : Index) : (s.observe r).idx = s.idx := rfl

/-- The output port after an evaluation is the block's function of the operand. -/
@[simp] theorem State.evaluation_idx (s : State) (n : Word) (r : Index) :
    (s.evaluation n r).idx = highestBit s.block.variant n := rfl

/-- A run takes its first line and goes on with the others. -/
theorem runInstrs_cons (i : Instr) (is : List Instr) (s : State) :
    runInstrs (i :: is) s = runInstrs is (s.evaluation i.operand (highestBit i.variant i.operand)) := by
  rw [runInstrs, exec_eq]

/-- A list of blocks steps its first block and the others apart. -/
theorem stepInstances_cons (s : State) (ss ts : List State) (h : stepInstances ss = .next ts) :
    stepInstances (s :: ss) = .next (s.observe s.idx :: ts) := by
  simp [stepInstances, step_eq, h]

/-- A host's word of 64 bits is presented; any other leaves the state as it is. -/
theorem withFetchWord_cases (s : State) (nbits w : Nat) :
    (nbits = 64 ∧ w < 2 ^ 64 ∧ s.withFetchWord nbits w = s.present (BitVec.ofNat 64 w)) ∨
    (¬(nbits = 64 ∧ w < 2 ^ 64) ∧ s.withFetchWord nbits w = s) := by
  by_cases h : nbits = 64 ∧ w < 2 ^ 64
  · exact .inl ⟨h.1, h.2, by rw [State.withFetchWord, hostWord, if_pos h]⟩
  · exact .inr ⟨h, by rw [State.withFetchWord, hostWord, if_neg h]⟩

end Sys2Proof.Machine
end

