-- ==== Sys2Proof/Laws/Core.lean ====
section
/-!
SUPPORT. Runs of the machine behind the host's interface, one step at a time.
-/

namespace Sys2Proof.Machine

/-- A run of `k + 1` steps of any machine whose first step goes on is a run of `k` steps from there. -/
theorem host_run_succ (M : Host.Core) (k : Nat) (s t : M.State) (h : M.step s = .next t) :
    M.run (k + 1) s = M.run k t := by
  simp only [Host.Core.run, h]

/-- The block's run of `k + 1` steps: one reading, then `k` more. -/
theorem core_run_succ (k : Nat) (s : State) :
    Sys2Proof.core.run (k + 1) s = Sys2Proof.core.run k (s.observe s.idx) :=
  host_run_succ Sys2Proof.core k s _ (step_eq s)

/-- The block's run of no step. -/
theorem core_run_zero (s : State) : Sys2Proof.core.run 0 s = .next s := rfl

end Sys2Proof.Machine
end

