-- ==== Sys2Proof/Laws/Decode.lean ====
section
/-!
SUPPORT. What the decoder can answer, said once.
-/

namespace Sys2Proof

/-- Whatever decodes was read from a legal VARIANT number and a number that is a 64-bit word. -/
theorem decode_ok {variant nbits w : Nat} {i : Instr} (h : decode variant nbits w = .ok i) :
    ∃ v, variantOfNumber variant = some v ∧ nbits = 64 ∧ w < 2 ^ 64 ∧ i = decodeWord v (BitVec.ofNat 64 w) := by
  unfold decode at h
  split at h
  · cases h
  · rename_i v hv
    split at h
    · cases h
    · split at h
      · cases h
      · cases h
        exact ⟨v, hv, by omega, by omega, rfl⟩

/-- The number of a VARIANT names it. -/
@[simp] theorem variantOfNumber_variantNumber (v : Variant) : variantOfNumber (variantNumber v) = some v := by
  cases v <;> rfl

/-- Only its own number names a VARIANT. -/
theorem variantNumber_of_some {k : Nat} {v : Variant} (h : variantOfNumber k = some v) : variantNumber v = k := by
  match k, h with
  | 0, h => cases h; rfl
  | 1, h => cases h; rfl
  | 2, h => cases h; rfl
  | 3, h => cases h; rfl

end Sys2Proof
end

