-- ==== Sys2Proof/Laws/Elaborate.lean ====
section
/-!
SUPPORT. What building a block can answer, and the value its input wires carry.
-/

namespace Sys2Proof.Machine

/-- No wire is outside the two-valued model exactly when every level is 0 or 1, wherever the numbering starts. -/
theorem firstUndefined_eq_none (ls : List Level) (start : Nat) :
    firstUndefined start ls = none ↔ ls.all Level.twoValued = true := by
  induction ls generalizing start with
  | nil => simp [firstUndefined]
  | cons l ls ih => cases l <;> simp [firstUndefined, levelBit, Level.twoValued, ih]

/-- Everything `build` can do when it goes on. -/
theorem build_next {b : Setup} {s : State} (h : build b = .next s) :
    variantOfNumber b.variantNumber = some s.block.variant ∧ b.wires.length = 64 ∧
    firstUndefined 0 b.wires = none ∧ s.env.n = BitVec.ofNat 64 (wiresValue b.wires) ∧ s.env.readings = [] := by
  unfold build at h
  split at h
  · cases h
  · rename_i v hv
    split at h
    · rename_i hw
      split at h
      · cases h
      · rename_i hu
        cases h
        exact ⟨hv, hw, hu, rfl, rfl⟩
    · cases h

/-- `k` wires carry a value below `2^k`. -/
theorem wiresValue_lt (ls : List Level) : wiresValue ls < 2 ^ ls.length := by
  induction ls with
  | nil => simp [wiresValue]
  | cons l ls ih =>
    have : ((levelBit l).getD false).toNat ≤ 1 := Bool.toNat_le _
    simp only [wiresValue, List.length_cons, pow_succ]
    omega

end Sys2Proof.Machine
end

