-- ==== Sys2Proof/Laws/Function.lean ====
section
/-!
SUPPORT. What the downward search that defines `HB` answers.
-/

namespace Sys2Proof.Machine

/-- Everything the search can answer: the highest 1 bit below its bound, or none when there is no 1 bit there. -/
theorem highestSetBelow_cases (n : Word) (k : Nat) :
    (∃ i, highestSetBelow n k = some i ∧ i < k ∧ n.getLsbD i = true ∧ ∀ j, i < j → j < k → n.getLsbD j = false) ∨
    (highestSetBelow n k = none ∧ ∀ j, j < k → n.getLsbD j = false) := by
  induction k with
  | zero => exact .inr ⟨rfl, fun j hj => absurd hj (Nat.not_lt_zero j)⟩
  | succ k ih =>
    cases hb : n.getLsbD k
    · have below : ∀ j, j < k + 1 → j ≠ k → j < k := fun j h1 h2 => by omega
      obtain ⟨i, hi, hlt, hset, habove⟩ | ⟨hnone, hall⟩ := ih
      · refine .inl ⟨i, by simp [highestSetBelow, hb, hi], by omega, hset, fun j h1 h2 => ?_⟩
        by_cases hj : j = k
        · exact hj ▸ hb
        · exact habove j h1 (below j h2 hj)
      · refine .inr ⟨by simp [highestSetBelow, hb, hnone], fun j h => ?_⟩
        by_cases hj : j = k
        · exact hj ▸ hb
        · exact hall j (below j h hj)
    · exact .inl ⟨k, by simp [highestSetBelow, hb], by omega, hb, fun j h1 h2 => by omega⟩

end Sys2Proof.Machine
end

