-- ==== Sys2Proof/Laws/Ops.lean ====
section
/-!
SUPPORT. One lemma for each shared operation that says, in terms of the number on port `n`, everything it can do.
Later proofs cite these and unfold no operation.
-/

namespace Sys2Proof.Machine

@[simp] theorem shiftAmount_eq (index w : Nat) : shiftAmount index w = index + w := rfl

/-- The logical right shift divides by a power of two (00_scope.md R11). -/
@[simp] theorem shiftRight_toNat (a : Word) (s : Nat) : (shiftRight a s).toNat = a.toNat / 2 ^ s := by
  simp [shiftRight, Nat.shiftRight_eq_div_pow]

@[simp] theorem anySet_iff (v : Word) : anySet v = true ↔ v ≠ 0#64 := by
  simp [anySet]

/-- A stage test asks whether the operand reaches `2^(index + w)`. -/
theorem stageTest_iff (n : Word) (index w : Nat) :
    stageTest n index w = true ↔ 2 ^ (index + w) ≤ n.toNat := by
  rw [stageTest, anySet_iff, shiftAmount_eq, Ne, BitVec.toNat_eq, shiftRight_toNat]
  simp

theorem stageTest_eq_false_iff (n : Word) (index w : Nat) :
    stageTest n index w = false ↔ n.toNat < 2 ^ (index + w) := by
  rw [← Bool.not_eq_true, stageTest_iff, not_le]

/-- Everything a stage can do: it adds its width when the operand reaches `2^(index + w)`, and otherwise keeps the
index. -/
theorem stage_cases (n : Word) (index w : Nat) :
    (stageTest n index w = true ∧ 2 ^ (index + w) ≤ n.toNat ∧ stage n index w = index + w) ∨
    (stageTest n index w = false ∧ n.toNat < 2 ^ (index + w) ∧ stage n index w = index) := by
  cases h : stageTest n index w
  · exact .inr ⟨rfl, (stageTest_eq_false_iff n index w).mp h, by simp [stage, h]⟩
  · exact .inl ⟨rfl, (stageTest_iff n index w).mp h, by simp [stage, h]⟩

@[simp] theorem narrow_nil (n : Word) (index : Nat) : narrow n index [] = index := rfl

@[simp] theorem narrow_cons (n : Word) (index w : Nat) (ws : List Nat) :
    narrow n index (w :: ws) = narrow n (stage n index w) ws := rfl

/-- A list of stages performed in two parts. -/
theorem narrow_append (n : Word) (index : Nat) (as bs : List Nat) :
    narrow n index (as ++ bs) = narrow n (narrow n index as) bs := by
  simp [narrow, List.foldl_append]

/-- The remaining bit of the full loop is a quotient. -/
@[simp] theorem remainingBit_eq (n : Word) (index : Nat) : remainingBit n index = n.toNat / 2 ^ (index + 1) := by
  simp [remainingBit]

/-- The `T4` address is the low four bits of the shifted operand. -/
theorem address4_toNat (n : Word) (index : Nat) : (address4 n index).toNat = n.toNat / 2 ^ index % 16 := by
  simp [address4]

/-- The `T8` address is the low eight bits of the shifted operand. -/
theorem address8_toNat (n : Word) (index : Nat) : (address8 n index).toNat = n.toNat / 2 ^ index % 256 := by
  simp [address8]

/-- The output port carries every index below 64 unchanged. -/
theorem toPort_toNat {index : Nat} (h : index < 64) : (toPort index).toNat = index := by
  simp [toPort]; omega

end Sys2Proof.Machine
end

