-- ==== Sys2Proof/Laws/PerInstr.lean ====
section
/-!
SUPPORT. Statements made once per constructor of `Instr`. An operation is named by its VARIANT and its operand word:
the row VARIANT selects, with the encoded word as operand, is the operation again (30_encoding.md R46).
-/

namespace Sys2Proof.Laws

/-- The row an operation's VARIANT selects, given the operation's encoded word, is the operation. -/
def RowOfVariant.Statement (i : Instr) : Prop :=
  decodeWord i.variant (encode i) = i ∧ encode i = i.operand

theorem RowOfVariant.hbFull (n : Word) : RowOfVariant.Statement (.hbFull n) := ⟨rfl, rfl⟩
theorem RowOfVariant.hbRoll (n : Word) : RowOfVariant.Statement (.hbRoll n) := ⟨rfl, rfl⟩
theorem RowOfVariant.hbTab4 (n : Word) : RowOfVariant.Statement (.hbTab4 n) := ⟨rfl, rfl⟩
theorem RowOfVariant.hbTab8 (n : Word) : RowOfVariant.Statement (.hbTab8 n) := ⟨rfl, rfl⟩

end Sys2Proof.Laws
end

