-- ==== Sys2Proof/Laws/StimulusText.lean ====
section
/-!
SUPPORT. The digits of an operand, written and read.
-/

namespace Sys2Proof.Machine

/-- A written digit has its value. -/
theorem hexValue_hexDigit : ∀ d < 16, hexValue (hexDigit d) = some d := by decide

/-- Reading the digits written for a number gives its low digits, after those read before. -/
theorem readDigits_hexDigits (after : List Char) (k acc m : Nat) :
    readDigits k acc (hexDigits k m ++ after) = .ok (acc * 16 ^ k + m % 16 ^ k, after) := by
  induction k generalizing acc with
  | zero => simp [readDigits, hexDigits, Nat.mod_one]
  | succ k ih =>
    simp only [hexDigits, List.cons_append, readDigits, hexValue_hexDigit _ (Nat.mod_lt _ (by norm_num : 0 < 16)), ih]
    congr 2
    rw [pow_succ, Nat.mod_mul]
    ring

end Sys2Proof.Machine
end

