-- ==== Sys2Proof/Tests/Slice0.lean ====
section
/-!
SUPPORT. Tests on fixed values, each expected result taken from spec/ (95_test_vectors.md unless a rule is named), the
smoke test of every check of WellFormed.lean, and for each statement with hypotheses a witness that meets them.
-/

namespace Sys2Proof.Tests

open Sys2Proof.Machine Sys2Proof.Safety

/-- The state after an outcome, if the machine goes on. -/
def nextState : Host.Outcome State Fault Refusal → Option State
  | .next t => some t
  | .fault _ => none
  | .refused _ => none

/-- The last result read, if the machine goes on. -/
def output (o : Host.Outcome State Fault Refusal) : Option Nat :=
  (nextState o).bind fun t => t.env.readings.getLast?.map fun r => r.idx.toNat

/-- The results of a run, if it goes on. -/
def resultsOf (o : Host.Outcome State Fault Refusal) : Option (List Nat) :=
  (nextState o).map fun t => t.results.map BitVec.toNat

/-- The name of a refusal, if that is the outcome. -/
def refusal : Host.Outcome State Fault Refusal → Option Refusal
  | .next _ => none
  | .fault _ => none
  | .refused r => some r

/-- A block of VARIANT `v` with `n` on its input, of which nothing has been read. -/
def blockWith (v : Variant) (n : Word) : State :=
  { block := { variant := v }, env := { n := n, readings := [] } }

/-- The same after one reading `r` of operand `m`. -/
def blockAfter (v : Variant) (n m : Word) (r : Index) : State :=
  { block := { variant := v }, env := { n := n, readings := [⟨m, r⟩] } }

/-- A set-up of VARIANT 2 with wires 0 and 8 high. -/
def goodSetup : Setup :=
  { variantNumber := 2, wires := .high :: List.replicate 7 .low ++ .high :: List.replicate 55 .low }

/-! ### Well-formedness: one ill-formed term for each check -/

theorem test_wellFormed_own_row : (Instr.hbTab4 7#64).wellFormed .tab4 = true := by decide
theorem test_wellFormed_refuses_other_row : (Instr.hbTab4 7#64).wellFormed .full = false := by decide
theorem test_wellFormed_setup : goodSetup.wellFormed = true := by decide
theorem test_variantLegal_refuses : ({ goodSetup with variantNumber := 4 } : Setup).variantLegal = false := by decide
theorem test_portComplete_refuses :
    ({ goodSetup with wires := List.replicate 63 .low } : Setup).portComplete = false := by decide
theorem test_inputTwoValued_refuses :
    ({ goodSetup with wires := List.replicate 63 .low ++ [.highZ] } : Setup).inputTwoValued = false := by decide

/-! ### Decoding: words written out from the encoding (30_encoding.md R40, R46) -/

theorem test_decode_full :
    decode 0 64 0b0000000000000000000000000000000000000000000000000000000011111111 = .ok (.hbFull 255#64) := by decide
theorem test_decode_roll :
    decode 1 64 0b0000000000000000000000000000000000000000000000000000000100000000 = .ok (.hbRoll 256#64) := by decide
theorem test_decode_tab4 :
    decode 2 64 0b1000000000000000000000000000000000000000000000000000000000000001 =
      .ok (.hbTab4 0x8000000000000001#64) := by decide
theorem test_decode_tab8 :
    decode 3 64 0b0000000100100011010001010110011110001001101010111100110111101111 =
      .ok (.hbTab8 0x0123456789ABCDEF#64) := by decide
theorem test_decode_refuses_variant_4 : decode 4 64 0 = .error (.variantOutOfRange 4) := by decide
theorem test_decode_refuses_long_word : decode 1 65 0 = .error (.notSixtyFourBits 65) := by decide
theorem test_decode_refuses_short_word : decode 1 8 255 = .error (.notSixtyFourBits 8) := by decide
theorem test_decode_refuses_wide_value : decode 1 64 (2 ^ 64) = .error (.notAWord (2 ^ 64)) := by decide
theorem test_decodeTableWord_default : decodeTableWord 64 3 = some (.hbRoll 3#64) := by decide
theorem test_host_word_is_never_cut :
    decodeTableWord 64 (2 ^ 64 + 1) = none ∧ (State.reset.withFetchWord 64 (2 ^ 64 + 1)).env.n = 0#64 := by decide
theorem test_host_word_is_never_padded :
    decodeTableWord 8 255 = none ∧ (State.reset.withFetchWord 8 255).env.n = 0#64 := by decide

/-- The table's rows name the four mnemonics in VARIANT order and every word matches each (30_encoding.md R46). -/
theorem test_opcodeTable_variants : opcodeTable.map (fun r => variantNumber r.variant) = [0, 1, 2, 3] := by decide
theorem test_every_word_matches_every_row (w : Word) : opcodeTable.all (fun r => rowMatches r w) = true := by
  simp [opcodeTable, rowMatches]

/-! ### The four operations: scenarios of the source and refuted misreadings (sections 1.1 and 6) -/

theorem test_full_255 : output (exec (.hbFull 0xFF#64) State.reset) = some 7 := by decide
theorem test_full_1 : output (exec (.hbFull 1#64) State.reset) = some 0 := by decide
theorem test_roll_256 : output (exec (.hbRoll 0x100#64) State.reset) = some 8 := by decide
theorem test_roll_priority : output (exec (.hbRoll 3#64) State.reset) = some 1 := by decide
theorem test_tab4_top : output (exec (.hbTab4 0x7FFFFFFFFFFFFFFF#64) State.reset) = some 62 := by decide
theorem test_tab4_zero : output (exec (.hbTab4 0#64) (blockAfter .tab4 9#64 9#64 3#6)) = some 0 := by decide
theorem test_tab8_top : output (exec (.hbTab8 0x8000000000000000#64) State.reset) = some 63 := by decide
theorem test_tab8_pattern : output (exec (.hbTab8 0x0123456789ABCDEF#64) State.reset) = some 56 := by decide

/-! ### Stages, tables and trees (sections 3, 3.2 and 4; 20_memory.md R24, R25) -/

theorem test_indices_deadbeef :
    (traceOf .roll 0x00000000DEADBEEF#64).stages.map StageRecord.indexAfter = [0, 16, 24, 28, 30, 31] := by decide
theorem test_shifts_pattern :
    (traceOf .full 0x0123456789ABCDEF#64).stages.map StageRecord.shift = [32, 48, 56, 60, 58, 57] := by decide
theorem test_read_tab4 : (traceOf .tab4 0x0000FFFF0000FFFF#64).read = some ⟨.t4, 15, 3⟩ := by decide
theorem test_read_tab8 : (traceOf .tab8 0x00000000DEADBEEF#64).read = some ⟨.t8, 222, 7⟩ := by decide
theorem test_t4_sum : (t4Contents.map BitVec.toNat).sum = 34 := by decide
theorem test_t8_sum : (t8Contents.map BitVec.toNat).sum = 1538 := by decide +kernel
theorem test_topDown_deadbeef : treeTopDown 0x00000000DEADBEEF#64 = 0b011111#6 := by decide
/-- The bottom-up tree on the block 0x2C (section 3.3). -/
theorem test_reduction_2c : (reduceTree (treeOver 0x2C#64 3 0)).pos = 0b101#3 := by decide
theorem test_leadingZeros_256 : leadingZeros 0x100#64 = 55 := by decide
theorem test_leadingZeros_0 : leadingZeros 0#64 = 64 := by decide

theorem test_any_bits : topDownAny 1#64 = true ∧ stageAny 1#64 = true ∧ topDownAny 0#64 = false ∧ stageAny 0#64 = false := by
  decide
/-- The laws of 42_reduction_tree.md R86 evaluated on vectors of section 3, the zero input among them. -/
theorem test_structure_laws :
    [0#64, 1#64, 0x00000000DEADBEEF#64, 0x0123456789ABCDEF#64, 0x8000000000000001#64].all structureLaws = true := by
  decide +kernel

/-- The laws of 40_highest_bit_loop.md R67 evaluated on vectors of section 3, the zero input among them. -/
theorem test_function_laws :
    functionLaws 0#64 1#64 = true ∧ functionLaws 0x0123456789ABCDEF#64 0x00000000DEADBEEF#64 = true ∧
    functionLaws 0x7FFFFFFFFFFFFFFF#64 0x8000000000000001#64 = true := by decide +kernel

/-! ### Steps, stimulus lists, building -/

/-- The output follows the input with no step in between (10_state.md R22). -/
theorem test_present_output : (State.reset.present 0x100#64).idx = 8#6 := by decide

theorem test_step_selects_variant : output (step (blockWith .tab4 0x10#64)) = some 4 := by decide
theorem test_step_after_reset : output (step (State.reset.withFetchWord 64 0xFFFF)) = some 15 := by decide
/-- The line of program P1 (section 5), its spaces and comment included. -/
theorem test_read_P1_line :
    readLine (textAll ++ ' ' :: '0' :: 'x' :: List.replicate 15 '0' ++ ['7', ' ', ' ', ';', ' ', '2']) =
      .ok (.hbAll 7#64) := by decide
theorem test_read_call :
    readLine (textCall ++ operandText 0xDEADBEEF#64 ++ [')']) = .ok (.hb 0xDEADBEEF#64) := by decide
theorem test_read_refuses_mnemonic : readLine ['H', 'B', 'X', ' ', '0', 'x'] = .error (.unknownMnemonic ['H', 'B', 'X']) := by
  decide
theorem test_run_all : resultsOf (runStimuli [.hbAll 4#64, .hb 3#64] State.reset) = some [2, 2, 2, 2, 1] := by decide
/-- The start of what the harness prints for inputs from 0 on (program P1), and a result of two digits. -/
theorem test_harness_text : harnessText [0#6, 0#6, 1#6, 63#6] = ['0', ',', '0', ',', '1', ',', '6', '3'] := by decide
theorem test_binary_text : binaryText 31#6 = ['0', '1', '1', '1', '1', '1'] := by decide
theorem test_build_output : (nextState (build goodSetup)).map State.idx = some 8#6 := by decide +kernel
theorem test_build_refuses_z :
    refusal (build { variantNumber := 0, wires := List.replicate 40 .low ++ .highZ :: List.replicate 23 .high }) =
      some (.inputNotTwoValued 40) := by decide
theorem test_build_refuses_variant :
    refusal (build { goodSetup with variantNumber := 7 }) = some (.variantOutOfRange 7) := by decide
theorem test_build_default_is_reset :
    nextState (build { variantNumber := 1, wires := List.replicate 64 .low }) = some State.reset := by decide +kernel

/-! ### Witnesses: the hypotheses of each statement that has some, met together -/

theorem witness_OperationsLeaveBlockUnchanged :
    exec (.hbTab8 0xFF#64) (blockWith .full 9#64) = .next (blockAfter .full 0xFF#64 0xFF#64 7#6) := by rfl
theorem witness_SameOperandSameOutput :
    (Instr.hbFull 6#64).operand = (Instr.hbTab8 6#64).operand ∧
    exec (.hbFull 6#64) State.reset = .next (blockAfter .roll 6#64 6#64 2#6) ∧
    exec (.hbTab8 6#64) (blockWith .tab8 1#64) = .next (blockAfter .tab8 6#64 6#64 2#6) := ⟨rfl, rfl, rfl⟩
theorem witness_StepRunsDecodedOperation :
    decode (variantNumber (blockWith .tab4 6#64).block.variant) 64 (blockWith .tab4 6#64).env.n.toNat =
      .ok (.hbTab4 6#64) := by decide
/-- A word that is read, at the largest value, and what is not read: a number just above, and the lengths next to 64. -/
theorem witness_PresentedWordRunsNext :
    State.reset.block.variant = Config.defaultVariant ∧ decodeTableWord 64 (2 ^ 64 - 1) = some (.hbRoll 0xFFFFFFFFFFFFFFFF#64) ∧
    decodeTableWord 64 (2 ^ 64) = none ∧ decodeTableWord 63 0 = none ∧ decodeTableWord 65 0 = none := by decide
theorem witness_StepKeepsSettled :
    Settled (blockAfter .tab8 0x100#64 3#64 1#6) ∧
    step (blockAfter .tab8 0x100#64 3#64 1#6) =
      .next { block := { variant := .tab8 }, env := { n := 0x100#64, readings := [⟨3#64, 1#6⟩, ⟨0x100#64, 8#6⟩] } } :=
  ⟨⟨by decide, by decide⟩, rfl⟩
theorem witness_DecodeOfEncode : (Instr.hbTab8 5#64).wellFormed .tab8 = true := by decide
theorem witness_EncodeOfDecode : decode 2 64 5 = .ok (.hbTab4 5#64) := by decide
/-- The clauses at their boundaries: VARIANT 3 is decoded and VARIANT 4 refused, at the largest word; and the lengths next
to 64 are refused. -/
theorem witness_OnlyVariantIsRefused :
    2 ^ 64 - 1 < 2 ^ 64 ∧ decode 3 64 (2 ^ 64 - 1) = .ok (.hbTab8 0xFFFFFFFFFFFFFFFF#64) ∧
    decode 4 64 (2 ^ 64 - 1) = .error (.variantOutOfRange 4) ∧
    decode 3 63 0 = .error (.notSixtyFourBits 63) ∧ decode 3 65 0 = .error (.notSixtyFourBits 65) := by decide
theorem witness_WrittenLineReadsBack : endsLine [' ', ';', 'x'] = true := by decide
theorem witness_HBIsHighestSetBit :
    (0x8000000000000001#64 : Word) ≠ 0#64 ∧ HB 0x8000000000000001#64 = 63 := by decide
/-- The ends of the two ranges of `k`. -/
theorem witness_DocumentedPropertiesHold :
    HB (BitVec.ofNat 64 (2 ^ 63)) = 63 ∧ HB (BitVec.ofNat 64 (2 ^ 0)) = 0 ∧
    HB (BitVec.ofNat 64 (2 ^ 63 - 1)) = 62 ∧ HB (BitVec.ofNat 64 (2 ^ 1 - 1)) = 0 := by decide
theorem witness_LowerBitsHaveNoEffect :
    (0x11#64 : Word) ≠ 0#64 ∧ (15#64 : Word).toNat < 2 ^ HB 0x11#64 := by decide
theorem witness_OutputIsMonotone : (0xFF#64 : Word).toNat ≤ (0x100#64 : Word).toNat := by decide
/-- The least and the greatest result a fibre is stated for. -/
theorem witness_FunctionLawsHold : 0 ≤ 63 ∧ 63 ≤ 63 ∧ lawFibre 1#64 0 = true ∧ lawFibre 0xFFFFFFFFFFFFFFFF#64 63 = true := by
  decide
/-- The first clause at `s = HB(n)`, the second at `n = 2`. -/
theorem witness_ShiftLowersOutput :
    (0x100#64 : Word) ≠ 0#64 ∧ 8 ≤ (highestBit .tab4 0x100#64).toNat ∧ 2 ≤ (2#64 : Word).toNat := by decide
/-- A member of the smallest and of the largest fibre the second clause speaks of. -/
theorem witness_FibreSizes :
    (1 ≤ 1 ∧ 1 ≤ 63 ∧ (highestBit .full 3#64).toNat = 1) ∧
    (1 ≤ 63 ∧ 63 ≤ 63 ∧ (highestBit .full 0x8000000000000000#64).toNat = 63) := by decide
/-- No stage performed, and all of them, of HB.TAB8. -/
theorem witness_StageListInvariants :
    (0 ≤ (widthsOf .tab8).length ∧ 0 = narrow 0x100#64 0 ((widthsOf .tab8).take 0)) ∧
    3 ≤ (widthsOf .tab8).length ∧ 8 = narrow 0x100#64 0 ((widthsOf .tab8).take 3) := by decide
theorem witness_ShiftAmountsStayInRange :
    stageRecord 0x4000000000000000#64 62 1 ∈ (traceOf .roll 0x4000000000000000#64).stages ∧
    (0x4000000000000000#64 : Word).getLsbD 62 = true := by decide
theorem witness_StageTestIsThreshold : stageRecord 0xFF#64 4 2 ∈ (traceOf .full 0xFF#64).stages := by decide
theorem witness_StageTestIsWindowTest : stageRecord 0x100#64 0 8 ∈ (traceOf .tab8 0x100#64).stages := by decide
/-- The whole word and a single bit. -/
theorem witness_ReductionTreeComputesHB :
    (6 ≤ 6 ∧ (0x2C#64 : Word) = ((0x2C#64 : Word).extractLsb' 0 (2 ^ 6)).setWidth 64) ∧
    (0 ≤ 6 ∧ (1#64 : Word) = ((0x2C#64 : Word).extractLsb' 5 (2 ^ 0)).setWidth 64) := by decide
theorem witness_LeadingZeroViewHoldsOffZero : (1#64 : Word) ≠ 0#64 ∧ leadingZeros 1#64 = 63 := by decide
/-- The three clauses: a set-up that builds, one that is ill-formed, and the least VARIANT out of range. -/
theorem witness_BuildRefusesExactlyIllFormed :
    goodSetup.wellFormed = true ∧ ({ goodSetup with wires := [] } : Setup).wellFormed = false ∧
    4 ≤ ({ goodSetup with variantNumber := 4 } : Setup).variantNumber := by decide
theorem witness_BuiltBlockCarriesItsInput :
    build goodSetup = .next (blockWith .tab4 0x101#64) := by rfl
theorem witness_InstancesAreIndependent :
    [blockWith .full 3#64, blockWith .tab8 0x100#64][1]? = some (blockWith .tab8 0x100#64) := by decide

end Sys2Proof.Tests
end

/-! ### `HB` as a logarithm (40_highest_bit_loop.md R53) -/

namespace Sys2Proof.Machine

/-- A number below 2^64 whose highest 1 bit is bit `i` has logarithm `i`. -/
theorem log2_eq_of_highest_bit {n : Word} {i : Nat} (hset : n.getLsbD i = true)
    (habove : ∀ j, i < j → n.getLsbD j = false) : Nat.log2 n.toNat = i := by
  have hle : 2 ^ i ≤ n.toNat := Nat.ge_two_pow_of_testBit hset
  have hlt : n.toNat < 2 ^ (i + 1) := Nat.lt_pow_two_of_testBit _ fun j hj => habove j hj
  exact (Nat.log2_eq_iff (Nat.ne_zero_of_lt (lt_of_lt_of_le (Nat.two_pow_pos i) hle))).mpr ⟨hle, hlt⟩

/-- `HB(n) = floor(log2(n))` (40_highest_bit_loop.md R53), the zero convention included, since `Nat.log2 0` is 0. -/
theorem HB_eq_log2 (n : Word) : HB n = Nat.log2 n.toNat := by
  obtain ⟨i, hi, -, hset, habove⟩ | ⟨hnone, hall⟩ := highestSetBelow_cases n 64
  · have above (j : Nat) (hj : i < j) : n.getLsbD j = false := by
      by_cases h64 : j < 64
      · exact habove j hj h64
      · exact BitVec.getLsbD_of_ge n j (not_lt.mp h64)
    rw [HB, hi, Option.getD_some, log2_eq_of_highest_bit hset above]
  · have hzero : n = 0#64 := BitVec.eq_of_getLsbD_eq fun j hj => by simpa using hall j hj
    rw [HB, hnone, hzero]
    rfl

theorem HB_lt (n : Word) : HB n < 64 := by
  rw [HB_eq_log2]
  by_cases h : n.toNat = 0
  · simp [h]
  · exact (Nat.log2_lt h).mpr n.isLt

end Sys2Proof.Machine

/-! ### The window an index leaves open (40_highest_bit_loop.md R59) -/

namespace Sys2Proof.Machine

/-- (I3) and (I4) of 40_highest_bit_loop.md R59: with the index at `i` and `w` the last width performed, no 1 bit of
`n` is at `i + w` or above, and the index has moved from 0 only as far as some 1 bit reaches. -/
def OpenWindow (n : Word) (i w : Nat) : Prop :=
  n.toNat < 2 ^ (i + w) ∧ (2 ^ i ≤ n.toNat ∨ i = 0)

/-- Before the first stage the window is the whole word. -/
theorem openWindow_start (n : Word) : OpenWindow n 0 64 :=
  ⟨by simpa using n.isLt, .inr rfl⟩

/-- A stage halves the window. -/
theorem OpenWindow.after_stage {n : Word} {i w : Nat} (h : OpenWindow n i (w + w)) :
    OpenWindow n (stage n i w) w := by
  obtain ⟨hlt, hge⟩ := h
  obtain ⟨-, hup, hs⟩ | ⟨-, hdown, hs⟩ := stage_cases n i w
  · rw [hs]
    exact ⟨by rwa [Nat.add_assoc], .inl hup⟩
  · rw [hs]
    exact ⟨hdown, hge⟩

/-- What the index still lacks is `HB` of the bits in the window. -/
theorem OpenWindow.HB_eq {n : Word} {i w : Nat} (h : OpenWindow n i w) :
    HB n = i + Nat.log2 (n.toNat / 2 ^ i) := by
  obtain ⟨-, hle | rfl⟩ := h
  · have hlog : i ≤ Nat.log2 n.toNat :=
      (Nat.le_log2 (Nat.ne_zero_of_lt (lt_of_lt_of_le (Nat.two_pow_pos i) hle))).mpr hle
    rw [HB_eq_log2, Nat.log2_eq_log_two, Nat.log2_eq_log_two, Nat.log_div_base_pow]
    rw [Nat.log2_eq_log_two] at hlog
    omega
  · simp [HB_eq_log2]

/-- The bits in a window of width `w` are a number below `2^w`. -/
theorem OpenWindow.div_lt {n : Word} {i w : Nat} (h : OpenWindow n i w) : n.toNat / 2 ^ i < 2 ^ w :=
  Nat.div_lt_of_lt_mul (by rw [← pow_add]; exact h.1)

/-- A window of one bit has found the highest 1 bit. -/
theorem OpenWindow.eq_HB {n : Word} {i : Nat} (h : OpenWindow n i 1) : i = HB n := by
  have hbit : n.toNat / 2 ^ i < 2 := h.div_lt
  have hlog : Nat.log2 (n.toNat / 2 ^ i) = 0 := by
    interval_cases n.toNat / 2 ^ i <;> rfl
  rw [h.HB_eq, hlog, Nat.add_zero]

/-- A list of stages whose widths halve leaves a window of its last width. -/
theorem OpenWindow.after_narrow {n : Word} {i w : Nat} {ws : List Nat} (hws : (w :: ws).IsChain fun a b => a = b + b)
    (h : OpenWindow n i w) : OpenWindow n (narrow n i ws) (ws.getLastD w) := by
  induction ws generalizing i w with
  | nil => exact h
  | cons v ws ih =>
    obtain ⟨rfl, hchain⟩ := List.isChain_cons_cons.mp hws
    rw [narrow_cons, List.getLastD_cons]
    exact ih hchain h.after_stage

/-- The stages of HB.TAB8, which every variant performs first, leave a window of 8 bits. -/
theorem openWindow_eight (n : Word) : OpenWindow n (narrow n 0 [32, 16, 8]) 8 :=
  (openWindow_start n).after_narrow (ws := [32, 16, 8]) (by decide)

/-- The stages of HB.TAB4 leave a window of 4 bits. -/
theorem openWindow_four (n : Word) : OpenWindow n (narrow n 0 [32, 16, 8, 4]) 4 :=
  (openWindow_start n).after_narrow (ws := [32, 16, 8, 4]) (by decide)

/-- The stages HB.FULL writes out leave a window of 2 bits. -/
theorem openWindow_two (n : Word) : OpenWindow n (narrow n 0 [32, 16, 8, 4, 2]) 2 :=
  (openWindow_start n).after_narrow (ws := [32, 16, 8, 4, 2]) (by decide)

/-- The stages of HB.ROLL leave a window of 1 bit. -/
theorem openWindow_one (n : Word) : OpenWindow n (narrow n 0 [32, 16, 8, 4, 2, 1]) 1 :=
  (openWindow_start n).after_narrow (ws := [32, 16, 8, 4, 2, 1]) (by decide)

/-- On a window of two bits the remaining bit of HB.FULL adds what a stage of width 1 adds
(40_highest_bit_loop.md R60, conflict C4). -/
theorem OpenWindow.add_remainingBit {n : Word} {i : Nat} (h : OpenWindow n i 2) :
    i + remainingBit n i = stage n i 1 := by
  have hlt : n.toNat < 2 ^ (i + 1) * 2 := by rw [← pow_succ]; exact h.1
  rw [remainingBit_eq]
  obtain ⟨-, hup, hs⟩ | ⟨-, hdown, hs⟩ := stage_cases n i 1
  · rw [hs, Nat.div_eq_of_lt_le (k := 1) (by omega) (by omega)]
  · rw [hs, Nat.div_eq_of_lt hdown, Nat.add_zero]

end Sys2Proof.Machine

/-! ### The tables are lists of logarithms (20_memory.md R24, R25) -/

namespace Sys2Proof.Machine

theorem t4Contents_eq_log2 : t4Contents.map BitVec.toNat = (List.range 16).map Nat.log2 := by decide

theorem t8Contents_eq_log2 : t8Contents.map BitVec.toNat = (List.range 256).map Nat.log2 := by decide +kernel

theorem romReadT4_toNat (a : Address4) : (romReadT4 a).toNat = Nat.log2 a.toNat := by
  have h := congrArg (·[a.toNat]?) t4Contents_eq_log2
  simpa [romReadT4, t4Contents_length, a.isLt] using h

theorem romReadT8_toNat (a : Address8) : (romReadT8 a).toNat = Nat.log2 a.toNat := by
  have h := congrArg (·[a.toNat]?) t8Contents_eq_log2
  simpa [romReadT8, t8Contents_length, a.isLt] using h

/-- On a window of four bits the entry of `T4` completes the index (41_highest_bit_table.md R70). -/
theorem OpenWindow.resolve4_eq_HB {n : Word} {i : Nat} (h : OpenWindow n i 4) : resolve4 n i = HB n := by
  rw [resolve4, romReadT4_toNat, address4_toNat, Nat.mod_eq_of_lt (by simpa using h.div_lt), h.HB_eq]

/-- On a window of eight bits the entry of `T8` completes the index (41_highest_bit_table.md R71). -/
theorem OpenWindow.resolve8_eq_HB {n : Word} {i : Nat} (h : OpenWindow n i 8) : resolve8 n i = HB n := by
  rw [resolve8, romReadT8_toNat, address8_toNat, Nat.mod_eq_of_lt (by simpa using h.div_lt), h.HB_eq]

end Sys2Proof.Machine

/-! ### Every variant computes `HB` (40_highest_bit_loop.md R54) -/

namespace Sys2Proof.Machine

theorem evalRoll_eq (n : Word) : evalRoll n = toPort (HB n) := by
  rw [evalRoll, (openWindow_one n).eq_HB]

theorem evalFull_eq_evalRoll (n : Word) : evalFull n = evalRoll n :=
  congrArg toPort (openWindow_two n).add_remainingBit

theorem evalTab4_eq (n : Word) : evalTab4 n = toPort (HB n) := by
  rw [evalTab4, (openWindow_four n).resolve4_eq_HB]

theorem evalTab8_eq (n : Word) : evalTab8 n = toPort (HB n) := by
  rw [evalTab8, (openWindow_eight n).resolve8_eq_HB]

/-- Each variant, by its own algorithm, puts `HB` of the operand on the port (40_highest_bit_loop.md R54). -/
theorem highestBit_eq (v : Variant) (n : Word) : highestBit v n = toPort (HB n) := by
  cases v with
  | full => exact (evalFull_eq_evalRoll n).trans (evalRoll_eq n)
  | roll => exact evalRoll_eq n
  | tab4 => exact evalTab4_eq n
  | tab8 => exact evalTab8_eq n

@[simp] theorem highestBit_toNat (v : Variant) (n : Word) : (highestBit v n).toNat = HB n := by
  rw [highestBit_eq, toPort_toNat (HB_lt n)]

/-- The variants are indistinguishable (00_scope.md R8). -/
theorem highestBit_variant_irrelevant (v u : Variant) (n : Word) : highestBit v n = highestBit u n := by
  rw [highestBit_eq, highestBit_eq]

/-- Port `idx` carries `HB` of the value on `n` in every state (10_state.md R20). -/
theorem State.idx_toNat (s : State) : s.idx.toNat = HB s.env.n :=
  highestBit_toNat s.block.variant s.env.n

/-- Whatever an operation answers is the evaluation of its operand, so a next state is that one. -/
theorem exec_next {i : Instr} {s t : State} (h : exec i s = .next t) :
    t = s.evaluation i.operand (highestBit i.variant i.operand) := by
  rw [exec_eq] at h
  cases h
  rfl

end Sys2Proof.Machine

/-! ### The statements of 00_scope.md -/

namespace Sys2Proof.Proofs

open Sys2Proof.Machine Sys2Proof.Safety

/-- Settles O5: both sides are evaluations of one operand, and the result does not depend on the variant. -/
theorem sameOperandSameOutput : Obligations.SameOperandSameOutput := by
  intro i j s u s' u' hij hs hu
  obtain rfl := exec_next hs
  obtain rfl := exec_next hu
  rw [hij, highestBit_variant_irrelevant i.variant j.variant]
  constructor
  · simp only [State.evaluation_readings, List.getLast?_concat]
  · simp only [State.evaluation_idx]
    exact highestBit_variant_irrelevant _ _ _

/-- Settles O9: a step reads what port `idx` carries, which is `HB` of the value on `n`. -/
theorem everyStepPresentsHB : Obligations.EveryStepPresentsHB :=
  fun s => ⟨s.observe s.idx, s.idx, step_eq s, s.idx_toNat, rfl⟩

/-- Settles O3: the frame of an evaluation, which is all an operation does. -/
theorem operationsLeaveBlockUnchanged : Obligations.OperationsLeaveBlockUnchanged := by
  intro i s t h
  obtain rfl := exec_next h
  exact ⟨State.evaluation_block .., State.evaluation_n ..,
    ⟨i.operand, highestBit i.variant i.operand⟩, rfl, State.evaluation_readings ..⟩

/-- After reset the port is right, as in every state, and there is no reading to be wrong. -/
theorem settled_reset : Settled State.reset :=
  ⟨State.idx_toNat _, by simp⟩

/-- Settles O11, with the fields of the reset state (00_scope.md R8). -/
theorem resetIsSettled : Obligations.ResetIsSettled :=
  ⟨settled_reset, State.reset_variant, State.reset_readings, State.reset_n⟩

end Sys2Proof.Proofs

/-! ### `HB` at a power of two, and against a threshold (30_encoding.md R41) -/

namespace Sys2Proof.Machine

theorem HB_two_pow {k : Nat} (hk : k < 64) : HB (BitVec.ofNat 64 (2 ^ k)) = k := by
  have hword : 2 ^ k < 2 ^ 64 := Nat.pow_lt_pow_right one_lt_two hk
  rw [HB_eq_log2, BitVec.toNat_ofNat, Nat.mod_eq_of_lt hword, Nat.log2_two_pow]

/-- `HB(n)` reaches a threshold exactly when some 1 bit of `n` does. The threshold 0 is left out: `HB(0)` is 0 by
convention (40_highest_bit_loop.md R62), with no 1 bit in `n`. -/
theorem le_HB_iff_exists_bit {n : Word} {k : Nat} (hk : 0 < k) :
    k ≤ HB n ↔ ∃ j, k ≤ j ∧ j ≤ 63 ∧ n.getLsbD j = true := by
  rw [HB_eq_log2]
  constructor
  · intro hle
    have hne : n.toNat ≠ 0 := by
      intro h0
      rw [h0, Nat.log2_zero] at hle
      omega
    obtain ⟨j, hkj, hset⟩ := Nat.exists_ge_and_testBit_of_ge_two_pow ((Nat.le_log2 hne).mp hle)
    exact ⟨j, hkj, Nat.le_of_lt_succ (BitVec.lt_of_getLsbD hset), hset⟩
  · rintro ⟨j, hkj, -, hset⟩
    have hpow : 2 ^ j ≤ n.toNat := Nat.ge_two_pow_of_testBit hset
    have hne : n.toNat ≠ 0 := Nat.ne_zero_of_lt (lt_of_lt_of_le (Nat.two_pow_pos j) hpow)
    exact hkj.trans ((Nat.le_log2 hne).mpr hpow)

/-- The top wire of the output port has weight 32 (30_encoding.md R41). -/
theorem index_getLsbD_five_iff (x : Index) : x.getLsbD 5 = true ↔ 32 ≤ x.toNat := by
  rw [show x.getLsbD 5 = x.msb from rfl, BitVec.msb_eq_decide, decide_eq_true_iff]

end Sys2Proof.Machine

/-! ### What a step keeps (10_state.md R13) -/

namespace Sys2Proof.Machine

/-- Whatever a step answers is the reading of port `idx`, so a next state is that one. -/
theorem step_next {s t : State} (h : step s = .next t) : t = s.observe s.idx := by
  rw [step_eq] at h
  cases h
  rfl

/-- Reading the port in a settled state leaves it settled: the one reading added is the port's value, which is `HB` of
the value on `n`. -/
theorem settled_observe_idx {s : State} (h : Safety.Settled s) : Safety.Settled (s.observe s.idx) := by
  obtain ⟨hport, hreadings⟩ := h
  refine ⟨hport, fun r hr => ?_⟩
  rw [State.observe_readings, List.mem_append, List.mem_singleton] at hr
  obtain hold | rfl := hr
  · exact hreadings r hold
  · exact hport

end Sys2Proof.Machine

/-! ### The statements of 10_state.md -/

namespace Sys2Proof.Proofs

open Sys2Proof.Machine Sys2Proof.Safety

/-- Settles O10: a step is the reading of port `idx`, whose frame is that of `observe`. -/
theorem stepKeepsSettled : Obligations.StepKeepsSettled := by
  intro s t hs hstep
  obtain rfl := step_next hstep
  exact ⟨settled_observe_idx hs, State.observe_block .., State.observe_n .., State.observe_idx ..⟩

/-- Settles O25: every variant computes `HB`, which a power of two takes to its exponent and which reaches 32 exactly
when a bit of `n[63:32]` is 1. -/
theorem outputRangeAndTopBit : Obligations.OutputRangeAndTopBit := by
  intro v
  constructor
  · intro r
    apply BitVec.eq_of_toNat_eq
    rw [highestBit_toNat, HB_two_pow r.isLt]
  · intro n
    rw [index_getLsbD_five_iff, highestBit_toNat]
    exact le_HB_iff_exists_bit (by omega)

/-- Settles O46: the port is right in every state, so also in the one after the environment presents `n`. -/
theorem outputFollowsInput : Obligations.OutputFollowsInput :=
  fun s n => ⟨s.idx_toNat, (s.present n).idx_toNat, State.present_block s n⟩

end Sys2Proof.Proofs

/-! ### The table addresses (20_memory.md R29) -/

namespace Sys2Proof.Machine

/-- On a window of four bits the `T4` address drops no bit of the shifted operand. -/
theorem OpenWindow.address4_toNat_eq {n : Word} {i : Nat} (h : OpenWindow n i 4) :
    (address4 n i).toNat = (shiftRight n i).toNat := by
  rw [address4_toNat, shiftRight_toNat, Nat.mod_eq_of_lt (by simpa using h.div_lt)]

/-- On a window of eight bits the `T8` address drops no bit of the shifted operand. -/
theorem OpenWindow.address8_toNat_eq {n : Word} {i : Nat} (h : OpenWindow n i 8) :
    (address8 n i).toNat = (shiftRight n i).toNat := by
  rw [address8_toNat, shiftRight_toNat, Nat.mod_eq_of_lt (by simpa using h.div_lt)]

/-- An open window is empty of 1 bits for operand 0 only: an index that has moved from 0 stands at or below some 1 bit
(40_highest_bit_loop.md R59, (I4)). -/
theorem OpenWindow.shiftRight_toNat_eq_zero_iff {n : Word} {i w : Nat} (h : OpenWindow n i w) :
    (shiftRight n i).toNat = 0 ↔ n = 0#64 := by
  rw [shiftRight_toNat, BitVec.toNat_eq, BitVec.toNat_ofNat, Nat.zero_mod]
  obtain ⟨-, hle | rfl⟩ := h
  · have hpos : 0 < 2 ^ i := Nat.two_pow_pos i
    have hquot : 0 < n.toNat / 2 ^ i := Nat.div_pos hle hpos
    omega
  · rw [pow_zero, Nat.div_one]

theorem OpenWindow.address4_eq_zero_iff {n : Word} {i : Nat} (h : OpenWindow n i 4) :
    address4 n i = 0#4 ↔ n = 0#64 := by
  rw [← h.shiftRight_toNat_eq_zero_iff, ← h.address4_toNat_eq]
  exact BitVec.toNat_eq

theorem OpenWindow.address8_eq_zero_iff {n : Word} {i : Nat} (h : OpenWindow n i 8) :
    address8 n i = 0#8 ↔ n = 0#64 := by
  rw [← h.shiftRight_toNat_eq_zero_iff, ← h.address8_toNat_eq]
  exact BitVec.toNat_eq

end Sys2Proof.Machine

/-! ### The tables hold `HB` (20_memory.md R24, R25) -/

namespace Sys2Proof.Machine

/-- `HB` of a narrower value is its logarithm: zero-extension to the operand keeps the number. -/
theorem HB_setWidth {k : Nat} (hk : k ≤ 64) (a : BitVec k) : HB (a.setWidth 64) = Nat.log2 a.toNat := by
  rw [HB_eq_log2, BitVec.toNat_setWidth_of_le hk]

end Sys2Proof.Machine

/-! ### The statements of 20_memory.md -/

namespace Sys2Proof.Proofs

open Sys2Proof.Machine

/-- Settles O34: the stages of HB.TAB4 leave a window of four bits and those of HB.TAB8 one of eight, and an address
holds the whole window. -/
theorem tableAddressesAreInRange : Obligations.TableAddressesAreInRange :=
  fun n => ⟨(openWindow_four n).address4_toNat_eq, (openWindow_eight n).address8_toNat_eq,
    (openWindow_four n).address4_eq_zero_iff, (openWindow_eight n).address8_eq_zero_iff⟩

/-- Settles O32: an entry of `T4` and `HB` of its address are both the logarithm of the address. -/
theorem t4HoldsHB : Obligations.T4HoldsHB := by
  constructor
  · intro a
    rw [romReadT4_toNat, HB_setWidth (by omega)]
  · decide

/-- Settles O33: an entry of `T8` and `HB` of its address are both the logarithm of the address; an entry of either table
depends on the number of its address alone. -/
theorem t8HoldsHB : Obligations.T8HoldsHB := by
  constructor
  · intro a
    rw [romReadT8_toNat, HB_setWidth (by omega)]
  · intro a
    rw [romReadT8_toNat, romReadT4_toNat, BitVec.toNat_setWidth_of_le (by omega)]

end Sys2Proof.Proofs

/-! ### The digits of an operand and the word of a line, written and read (30_encoding.md R51) -/

namespace Sys2Proof.Machine

/-- A written operand is read as itself, with every bit, and the text after it is left. -/
theorem readOperand_operandText (n : Word) (after : List Char) :
    readOperand (operandText n ++ after) = .ok (n, after) := by
  have hdigits : readDigits 16 0 (hexDigits 16 n.toNat ++ after) = .ok (n.toNat, after) := by
    have hlt : n.toNat < 16 ^ 16 := n.isLt
    rw [readDigits_hexDigits, Nat.zero_mul, Nat.zero_add, Nat.mod_eq_of_lt hlt]
  simp only [operandText, List.cons_append, readOperand, hdigits, BitVec.ofNat_toNat, BitVec.setWidth_eq]

/-- A mnemonic is one word: it holds no space. -/
theorem ne_space_of_mem_mnemonicText (l : Stimulus) : ∀ c ∈ mnemonicText l, (c != ' ') = true := by
  rw [← List.all_eq_true]
  obtain (_ | _ | _ | _) | _ | _ := l <;> rfl

/-- The mnemonics are told apart: each begins its own line. -/
theorem lineOf_mnemonicText (l : Stimulus) : lineOf (mnemonicText l) (lineOperand l) = some l := by
  obtain (_ | _ | _ | _) | _ | _ := l <;> rfl

/-- A word that begins a line with one operand begins one with every operand. -/
theorem exists_lineOf_of_lineOf {word : List Char} {n : Word} {l : Stimulus} (h : lineOf word n = some l) (m : Word) :
    ∃ k, lineOf word m = some k := by
  unfold lineOf at h ⊢
  split_ifs at h ⊢ <;> exact ⟨_, rfl⟩

/-- A word without spaces, one space and a written operand is read as the line the word begins. -/
theorem readPlain_word_operandText {word after : List Char} {n : Word} {l : Stimulus}
    (hword : ∀ c ∈ word, (c != ' ') = true) (hline : lineOf word n = some l) (hafter : endsLine after = true) :
    readPlain (word ++ ' ' :: (operandText n ++ after)) = .ok l := by
  have htake : (word ++ ' ' :: (operandText n ++ after)).takeWhile (· != ' ') = word := by
    simp [List.takeWhile_append_of_pos hword]
  have hdrop : (word ++ ' ' :: (operandText n ++ after)).dropWhile (· != ' ') = ' ' :: (operandText n ++ after) := by
    simp [List.dropWhile_append_of_pos hword]
  have hspace : (' ' :: (operandText n ++ after)).dropWhile (· == ' ') = operandText n ++ after := rfl
  obtain ⟨k, hk⟩ := exists_lineOf_of_lineOf hline 0#64
  simp only [readPlain, htake, hdrop, hspace, hk, readOperand_operandText, hafter, if_true, hline]

/-- No mnemonic is taken for the other spelling of HB, which begins with a small letter. -/
theorem textCall_isPrefixOf_mnemonicText_append (l : Stimulus) (rest : List Char) :
    textCall.isPrefixOf (mnemonicText l ++ rest) = false := by
  obtain (_ | _ | _ | _) | _ | _ := l <;> rfl

end Sys2Proof.Machine

/-! ### What the decoder answers, by its VARIANT number (30_encoding.md R46 to R49) -/

namespace Sys2Proof

/-- The numbers from 4 on name no VARIANT (30_encoding.md R48). -/
theorem variantOfNumber_eq_none {k : Nat} (h : 4 ≤ k) : variantOfNumber k = none := by
  obtain ⟨j, rfl⟩ := Nat.exists_eq_add_of_le' h
  rfl

/-- The numbers below 4, and no others, name a VARIANT (00_scope.md R8). -/
theorem exists_variantOfNumber_iff {k : Nat} : (∃ v, variantOfNumber k = some v) ↔ k < 4 := by
  constructor
  · rintro ⟨v, hv⟩
    by_contra hge
    rw [variantOfNumber_eq_none (not_lt.mp hge)] at hv
    cases hv
  · intro hlt
    interval_cases k <;> exact ⟨_, rfl⟩

/-- Under a legal VARIANT number every 64-bit word is the operand of that VARIANT's row (30_encoding.md R46, R47). -/
theorem decode_of_variantOfNumber {k w : Nat} {v : Variant} (hv : variantOfNumber k = some v) (hw : w < 2 ^ 64) :
    decode k 64 w = .ok (decodeWord v (BitVec.ofNat 64 w)) := by
  simp only [decode, hv, ne_eq, not_true_eq_false, if_false, not_le.mpr hw]

/-- An illegal VARIANT number is refused whatever the word (30_encoding.md R48). -/
theorem decode_of_four_le {k : Nat} (h : 4 ≤ k) (nbits w : Nat) : decode k nbits w = .error (.variantOutOfRange k) := by
  simp only [decode, variantOfNumber_eq_none h]

/-- A word of another length is refused under every legal VARIANT number (30_encoding.md R49). -/
theorem decode_of_ne_sixtyFour {k nbits : Nat} {v : Variant} (hv : variantOfNumber k = some v) (h : nbits ≠ 64)
    (w : Nat) : decode k nbits w = .error (.notSixtyFourBits nbits) := by
  simp only [decode, hv, if_pos h]

/-- The decoder on what the block itself has: the number of its VARIANT and the word on port `n`. -/
@[simp] theorem decode_variantNumber_toNat (v : Variant) (n : Word) :
    decode (variantNumber v) 64 n.toNat = .ok (decodeWord v n) := by
  rw [decode_of_variantOfNumber (variantOfNumber_variantNumber v) n.isLt, BitVec.ofNat_toNat, BitVec.setWidth_eq]

theorem Instr.wellFormed_iff (v : Variant) (i : Instr) : i.wellFormed v = true ↔ i.variant = v := by
  simp [Instr.wellFormed]

theorem rowOfVariant (i : Instr) : Laws.RowOfVariant.Statement i := by
  cases i with
  | hbFull n => exact Laws.RowOfVariant.hbFull n
  | hbRoll n => exact Laws.RowOfVariant.hbRoll n
  | hbTab4 n => exact Laws.RowOfVariant.hbTab4 n
  | hbTab8 n => exact Laws.RowOfVariant.hbTab8 n

@[simp] theorem encode_eq_operand (i : Instr) : encode i = i.operand := by
  obtain ⟨-, henc⟩ := rowOfVariant i
  exact henc

/-- The host's question is answered exactly for a word of 64 bits, with the default VARIANT's row on it. -/
theorem decodeTableWord_eq_some_iff {nbits w : Nat} {i : Instr} :
    decodeTableWord nbits w = some i ↔
      (nbits = 64 ∧ w < 2 ^ 64) ∧ decodeWord Config.defaultVariant (BitVec.ofNat 64 w) = i := by
  by_cases h : nbits = 64 ∧ w < 2 ^ 64
  · simp only [decodeTableWord, hostWord, if_pos h, decode_variantNumber_toNat, Except.toOption, Option.some.injEq,
      and_iff_right h]
  · have hnone : decodeTableWord nbits w = none := by rw [decodeTableWord, hostWord, if_neg h]
    simp only [hnone, reduceCtorEq, h, false_and]

end Sys2Proof

/-! ### What building a block answers (60_exceptions.md R100) -/

namespace Sys2Proof.Machine

theorem setup_wellFormed_iff (b : Setup) :
    b.wellFormed = true ↔
      b.variantNumber < 4 ∧ b.wires.length = 64 ∧ firstUndefined 0 b.wires = none := by
  simp [Setup.wellFormed, Setup.variantLegal, Setup.portComplete, Setup.inputTwoValued, firstUndefined_eq_none,
    and_assoc]

/-- A block is built from a well-formed set-up and from no other. -/
theorem build_goesOn_iff (b : Setup) : (∃ s, build b = .next s) ↔ b.wellFormed = true := by
  rw [setup_wellFormed_iff]
  constructor
  · rintro ⟨s, h⟩
    obtain ⟨hv, hwires, hlevels, -, -⟩ := build_next h
    exact ⟨exists_variantOfNumber_iff.mp ⟨_, hv⟩, hwires, hlevels⟩
  · rintro ⟨hlt, hwires, hlevels⟩
    obtain ⟨v, hv⟩ := exists_variantOfNumber_iff.mpr hlt
    simp [build, hv, hwires, hlevels]

/-- There is no fault, so building a block answers it or refuses (60_exceptions.md R87). -/
theorem build_next_or_refused (b : Setup) : (∃ s, build b = .next s) ∨ ∃ r, build b = .refused r := by
  cases h : build b with
  | next s => exact .inl ⟨s, rfl⟩
  | fault f => cases f
  | refused r => exact .inr ⟨r, rfl⟩

theorem build_of_four_le {b : Setup} (h : 4 ≤ b.variantNumber) :
    build b = .refused (.variantOutOfRange b.variantNumber) := by
  simp only [build, variantOfNumber_eq_none h]

/-- Wire `k` has weight `2^k` (30_encoding.md R40): bit `k` of the wires' value is 1 exactly where wire `k` is high. -/
theorem wiresValue_testBit (ls : List Level) (k : Nat) :
    (wiresValue ls).testBit k = true ↔ ls[k]? = some .high := by
  induction ls generalizing k with
  | nil => simp [wiresValue]
  | cons l ls ih =>
    have hbit : wiresValue (l :: ls) = Nat.bit ((levelBit l).getD false) (wiresValue ls) := by
      rw [wiresValue, Nat.bit_val, Nat.add_comm]
    rw [hbit]
    cases k with
    | zero => cases l <;> simp [levelBit]
    | succ k => rw [Nat.testBit_bit_succ, ih, List.getElem?_cons_succ]

end Sys2Proof.Machine

/-! ### What a stimulus list adds (70_reset_and_hazards.md R111) -/

namespace Sys2Proof.Machine

@[simp] theorem State.evaluation_results (s : State) (n : Word) (r : Index) :
    (s.evaluation n r).results = s.results ++ [r] := by
  simp [State.results]

/-- A run of operations goes on to its end, leaves the block alone and adds the result of each in order. -/
theorem runInstrs_next (is : List Instr) (s : State) :
    ∃ t, runInstrs is s = .next t ∧ t.block = s.block ∧
      t.results = s.results ++ is.map fun i => highestBit i.variant i.operand := by
  induction is generalizing s with
  | nil => exact ⟨s, rfl, rfl, by simp⟩
  | cons i is ih =>
    obtain ⟨t, hrun, hblock, hresults⟩ := ih (s.evaluation i.operand (highestBit i.variant i.operand))
    refine ⟨t, (runInstrs_cons i is s).trans hrun, hblock, ?_⟩
    rw [hresults, State.evaluation_results, List.append_assoc, List.singleton_append, List.map_cons]

end Sys2Proof.Machine

/-! ### The statements of 30_encoding.md -/

namespace Sys2Proof.Proofs

open Sys2Proof.Machine

/-- Settles O17: a written line is a mnemonic, which is a word without spaces that begins its own line, one space and
the operand's digits. -/
theorem writtenLineReadsBack : Obligations.WrittenLineReadsBack := by
  intro l after hafter
  rw [lineText, List.append_assoc, List.cons_append, readLine, textCall_isPrefixOf_mnemonicText_append]
  exact readPlain_word_operandText (ne_space_of_mem_mnemonicText l) (lineOf_mnemonicText l) hafter

/-- Settles O42: what builds is what is well-formed, and what does not build is refused. -/
theorem buildRefusesExactlyIllFormed : Obligations.BuildRefusesExactlyIllFormed := by
  intro b
  refine ⟨(build_goesOn_iff b).mpr, fun hill => ?_, build_of_four_le⟩
  refine (build_next_or_refused b).resolve_left fun hnext => ?_
  rw [(build_goesOn_iff b).mp hnext] at hill
  cases hill

/-- Settles O43: the value on `n` is that of the 64 wires, bit by bit, and the port is right in every state. -/
theorem builtBlockCarriesItsInput : Obligations.BuiltBlockCarriesItsInput := by
  intro b s h
  obtain ⟨hv, hwires, -, hn, hreadings⟩ := build_next h
  refine ⟨variantNumber_of_some hv, fun k => ?_, hreadings, s.idx_toNat⟩
  rw [hn, BitVec.getLsbD_ofNat, Bool.and_eq_true, decide_eq_true_iff, wiresValue_testBit]
  refine and_iff_right_of_imp fun hhigh => ?_
  obtain ⟨hlt, -⟩ := List.getElem?_eq_some_iff.mp hhigh
  exact hwires ▸ hlt

/-- Settles O44: a list is run as the operations its lines stand for, and each adds `HB` of its operand whatever its
variant. -/
theorem stimulusListGivesResults : Obligations.StimulusListGivesResults := by
  intro ls s
  obtain ⟨t, hrun, hblock, hresults⟩ := runInstrs_next (ls.flatMap expand) s
  refine ⟨t, _, hrun, hblock, hresults, ?_⟩
  rw [List.map_map, List.map_flatMap]
  congr 1
  funext l
  cases l with
  | op i => simp [expand]
  | hb n => simp [expand, Instr.operand]
  | hbAll n => simp [expand, Instr.operand, List.replicate]

/-- Settles O7: the decoder answers the row of VARIANT on the word on `n`, which is what `step` runs. -/
theorem stepRunsDecodedOperation : Obligations.StepRunsDecodedOperation := by
  intro s
  rw [decode_variantNumber_toNat]
  refine ⟨⟨_, rfl, (Instr.wellFormed_iff _ _).mpr (decodeWord_variant _ _)⟩, fun i hi => ?_⟩
  cases hi
  rfl

/-- Settles O8: both questions of the host's turn on the word's being one of 64 bits. -/
theorem presentedWordRunsNext : Obligations.PresentedWordRunsNext := by
  constructor
  · intro s nbits w i hdefault hread
    obtain ⟨hword, rfl⟩ := decodeTableWord_eq_some_iff.mp hread
    obtain ⟨-, -, hpresent⟩ | ⟨hnot, -⟩ := withFetchWord_cases s nbits w
    · rw [hpresent, decodeWord_operand, ← hdefault]
      exact ⟨rfl, rfl⟩
    · exact absurd hword hnot
  · intro s nbits w hread
    obtain ⟨hbits, hlt, -⟩ | ⟨-, hsame⟩ := withFetchWord_cases s nbits w
    · rw [decodeTableWord_eq_some_iff.mpr ⟨⟨hbits, hlt⟩, rfl⟩] at hread
      cases hread
    · exact hsame

/-- Settles O13: the encoded word of an operation is its operand, which its VARIANT's row takes whole. -/
theorem decodeOfEncode : Obligations.DecodeOfEncode := by
  intro v i hrow
  obtain rfl := (Instr.wellFormed_iff v i).mp hrow
  rw [decode_variantNumber_toNat, encode_eq_operand, decodeWord_self]

/-- Settles O14: what decodes was a 64-bit word under a legal VARIANT number, and the row keeps both. -/
theorem encodeOfDecode : Obligations.EncodeOfDecode := by
  intro k nbits w i h
  obtain ⟨v, hv, hbits, hw, rfl⟩ := decode_ok h
  refine ⟨hbits, ?_, ?_⟩
  · rw [decodeWord_variant, variantNumber_of_some hv]
  · rw [encode_eq_operand, decodeWord_operand, BitVec.toNat_ofNat, Nat.mod_eq_of_lt hw]

/-- Settles O15: below 4 the VARIANT number names a row, which takes every 64-bit word and no other; from 4 on it names
none. -/
theorem onlyVariantIsRefused : Obligations.OnlyVariantIsRefused := by
  refine ⟨fun k w hw => ⟨⟨?_, fun hlt => ?_⟩, fun hge => decode_of_four_le hge 64 w⟩, fun k nbits w hlt hne => ?_⟩
  · rintro ⟨i, h⟩
    obtain ⟨v, hv, -⟩ := decode_ok h
    exact exists_variantOfNumber_iff.mp ⟨v, hv⟩
  · obtain ⟨v, hv⟩ := exists_variantOfNumber_iff.mpr hlt
    exact ⟨_, decode_of_variantOfNumber hv hw⟩
  · obtain ⟨v, hv⟩ := exists_variantOfNumber_iff.mpr hlt
    exact decode_of_ne_sixtyFour hv hne w

/-- Settles O16: four words, each on the row of its VARIANT number. -/
theorem writtenWordsDecode : Obligations.WrittenWordsDecode :=
  ⟨decode_variantNumber_toNat .full 0x00000000000000FF#64, decode_variantNumber_toNat .roll 0x0000000000000100#64,
    decode_variantNumber_toNat .tab4 0x8000000000000001#64, decode_variantNumber_toNat .tab8 0x0123456789ABCDEF#64⟩

end Sys2Proof.Proofs

/-! ### `HB` and the powers of two around the operand (40_highest_bit_loop.md R53, R62, R67) -/

namespace Sys2Proof.Machine

theorem HB_zero : HB 0#64 = 0 := rfl

theorem word_toNat_ne_zero_iff {n : Word} : n.toNat ≠ 0 ↔ n ≠ 0#64 := by
  rw [BitVec.toNat_ne, BitVec.toNat_zero]

theorem lt_two_pow_HB_succ (n : Word) : n.toNat < 2 ^ (HB n + 1) := by
  rw [HB_eq_log2]
  exact Nat.lt_log2_self

/-- Bracketing (40_highest_bit_loop.md R53): `HB(n)` is the one `k` with `2^k <= n < 2^(k+1)`. -/
theorem HB_eq_iff {n : Word} {k : Nat} (hn : n ≠ 0#64) :
    HB n = k ↔ 2 ^ k ≤ n.toNat ∧ n.toNat < 2 ^ (k + 1) := by
  rw [HB_eq_log2, Nat.log2_eq_iff (word_toNat_ne_zero_iff.mpr hn)]

/-- A bracketed operand is not 0, so the bracket alone gives `HB`. -/
theorem HB_eq_of_bracket {n : Word} {k : Nat} (hle : 2 ^ k ≤ n.toNat) (hlt : n.toNat < 2 ^ (k + 1)) : HB n = k :=
  (HB_eq_iff (word_toNat_ne_zero_iff.mp (lt_of_lt_of_le (Nat.two_pow_pos k) hle).ne')).mpr ⟨hle, hlt⟩

/-- `HB(n)` reaches a threshold other than 0 exactly when `n` reaches that power of two. -/
theorem le_HB_iff {n : Word} {k : Nat} (hk : 0 < k) : k ≤ HB n ↔ 2 ^ k ≤ n.toNat := by
  by_cases hn : n = 0#64
  · simp [hn, HB_zero, hk.ne']
  · rw [HB_eq_log2, Nat.le_log2 (word_toNat_ne_zero_iff.mpr hn)]

theorem HB_le_iff (n : Word) (k : Nat) : HB n ≤ k ↔ n.toNat < 2 ^ (k + 1) := by
  rw [← Nat.lt_succ_iff, ← not_le, le_HB_iff k.succ_pos, not_le]

/-- The zero convention (40_highest_bit_loop.md R62): 0 and 1 are the operands below 2, and give 0. -/
theorem HB_eq_zero_iff (n : Word) : HB n = 0 ↔ n.toNat < 2 := by
  rw [← Nat.le_zero, HB_le_iff, zero_add, pow_one]

theorem getLsbD_HB {n : Word} (hn : n ≠ 0#64) : n.getLsbD (HB n) = true := by
  rw [← BitVec.testBit_toNat, HB_eq_log2]
  exact Nat.testBit_log2 (word_toNat_ne_zero_iff.mpr hn)

theorem getLsbD_of_HB_lt {n : Word} {j : Nat} (hj : HB n < j) : n.getLsbD j = false := by
  rw [← BitVec.testBit_toNat]
  exact Nat.testBit_eq_false_of_lt ((lt_two_pow_HB_succ n).trans_le (Nat.pow_le_pow_right two_pos hj))

theorem HB_mono {n m : Word} (h : n.toNat ≤ m.toNat) : HB n ≤ HB m :=
  (HB_le_iff n (HB m)).mpr (h.trans_lt (lt_two_pow_HB_succ m))

/-- A shift right lowers `HB` by its amount, down to 0 when the last 1 bit is shifted out. -/
theorem HB_ushiftRight (n : Word) (s : Nat) : HB (n >>> s) = HB n - s := by
  rw [HB_eq_log2, HB_eq_log2, BitVec.toNat_ushiftRight, Nat.shiftRight_eq_div_pow, Nat.log2_eq_log_two,
    Nat.log2_eq_log_two, Nat.log_div_base_pow]

theorem HB_eq_HB_halved_add_one {n : Word} (hn : 2 ≤ n.toNat) : HB n = HB (n >>> 1) + 1 := by
  have hpos : 1 ≤ HB n := (le_HB_iff one_pos).mpr (by simpa using hn)
  rw [HB_ushiftRight]
  omega

theorem HB_or (a b : Word) : HB (a ||| b) = max (HB a) (HB b) := by
  have hle_a : a.toNat ≤ (a ||| b).toNat := Nat.left_le_or.trans_eq (BitVec.toNat_or a b).symm
  have hle_b : b.toNat ≤ (a ||| b).toNat := Nat.right_le_or.trans_eq (BitVec.toNat_or a b).symm
  refine le_antisymm ?_ (max_le (HB_mono hle_a) (HB_mono hle_b))
  have ha : a.toNat < 2 ^ (max (HB a) (HB b) + 1) := (HB_le_iff a _).mp (le_max_left _ _)
  have hb : b.toNat < 2 ^ (max (HB a) (HB b) + 1) := (HB_le_iff b _).mp (le_max_right _ _)
  rw [HB_le_iff, BitVec.toNat_or]
  exact Nat.or_lt_two_pow ha hb

/-- Priority (40_highest_bit_loop.md R63): what stands below a 1 bit does not change `HB`. -/
theorem HB_two_pow_add {k : Nat} (hk : k < 64) {m : Word} (hm : m.toNat < 2 ^ k) :
    HB (BitVec.ofNat 64 (2 ^ k) + m) = k := by
  have hword : 2 ^ (k + 1) ≤ 2 ^ 64 := Nat.pow_le_pow_right two_pos hk
  have hdouble : 2 ^ (k + 1) = 2 ^ k + 2 ^ k := by rw [pow_succ, mul_two]
  have hsum : (BitVec.ofNat 64 (2 ^ k) + m).toNat = 2 ^ k + m.toNat := by
    rw [BitVec.toNat_add, BitVec.toNat_ofNat, Nat.mod_add_mod, Nat.mod_eq_of_lt (by omega)]
  exact HB_eq_of_bracket (by omega) (by omega)

/-- The largest operand below a power of two (40_highest_bit_loop.md R66, monotonic boundary). -/
theorem HB_two_pow_succ_sub_one {k : Nat} (hk : k < 64) : HB (BitVec.ofNat 64 (2 ^ (k + 1) - 1)) = k := by
  have hword : 2 ^ (k + 1) ≤ 2 ^ 64 := Nat.pow_le_pow_right two_pos hk
  have hdouble : 2 ^ (k + 1) = 2 ^ k + 2 ^ k := by rw [pow_succ, mul_two]
  have hpos : 0 < 2 ^ k := Nat.two_pow_pos k
  have hvalue : (BitVec.ofNat 64 (2 ^ (k + 1) - 1)).toNat = 2 ^ (k + 1) - 1 := by
    rw [BitVec.toNat_ofNat, Nat.mod_eq_of_lt (by omega)]
  exact HB_eq_of_bracket (by omega) (by omega)

/-! ### The inputs that give one result (40_highest_bit_loop.md R67, Fibre sizes) -/

@[simp] theorem fibreFirst_zero : fibreFirst 0 = 0 := rfl
@[simp] theorem fibreSize_zero : fibreSize 0 = 2 := rfl
@[simp] theorem fibreFirst_of_pos {k : Nat} (hk : 0 < k) : fibreFirst k = 2 ^ k := if_neg hk.ne'
@[simp] theorem fibreSize_of_pos {k : Nat} (hk : 0 < k) : fibreSize k = 2 ^ k := if_neg hk.ne'

/-- The fibre of `k` ends where that of `k + 1` begins; the fibre of 0 takes in both 0 and 1. -/
theorem fibreFirst_add_fibreSize (k : Nat) : fibreFirst k + fibreSize k = 2 ^ (k + 1) := by
  obtain rfl | hk := Nat.eq_zero_or_pos k
  · rfl
  · rw [fibreFirst_of_pos hk, fibreSize_of_pos hk, pow_succ, mul_two]

/-- `n` gives `k` exactly when it is in the fibre of `k`. -/
theorem HB_eq_iff_mem_fibre (n : Word) (k : Nat) :
    HB n = k ↔ fibreFirst k ≤ n.toNat ∧ n.toNat < fibreFirst k + fibreSize k := by
  rw [fibreFirst_add_fibreSize, ← HB_le_iff]
  obtain rfl | hk := Nat.eq_zero_or_pos k
  · simp only [fibreFirst_zero, Nat.zero_le, true_and, Nat.le_zero]
  · rw [fibreFirst_of_pos hk, ← le_HB_iff hk]
    omega

/-- Among the numbers of 64 bits the fibre of `k` is whole. -/
theorem filter_HB_eq {k : Nat} (hk : k ≤ 63) :
    ((Finset.range (2 ^ 64)).filter fun m => HB (BitVec.ofNat 64 m) = k) =
      Finset.Ico (fibreFirst k) (fibreFirst k + fibreSize k) := by
  have hend : fibreFirst k + fibreSize k ≤ 2 ^ 64 := by
    rw [fibreFirst_add_fibreSize]
    exact Nat.pow_le_pow_right two_pos (by omega)
  ext m
  rw [Finset.mem_filter, Finset.mem_range, Finset.mem_Ico, HB_eq_iff_mem_fibre, BitVec.toNat_ofNat]
  constructor
  · rintro ⟨hm, hfibre⟩
    rwa [Nat.mod_eq_of_lt hm] at hfibre
  · intro hfibre
    have hm : m < 2 ^ 64 := hfibre.2.trans_le hend
    rw [Nat.mod_eq_of_lt hm]
    exact ⟨hm, hfibre⟩

theorem card_filter_highestBit_eq (v : Variant) {k : Nat} (hk : k ≤ 63) :
    ((Finset.range (2 ^ 64)).filter fun m => (highestBit v (BitVec.ofNat 64 m)).toNat = k).card = fibreSize k := by
  simp only [highestBit_toNat]
  rw [filter_HB_eq hk, Nat.card_Ico, Nat.add_sub_cancel_left]

end Sys2Proof.Machine

/-! ### What an operation and a run of steps present (40_highest_bit_loop.md R54, R68) -/

namespace Sys2Proof.Machine

/-- Whichever operation it is, it goes on, presents its operand and reads `HB` of it. -/
theorem exec_presents_HB (i : Instr) (s : State) :
    ∃ t r, exec i s = .next t ∧ r.toNat = HB i.operand ∧ t.idx.toNat = HB i.operand ∧
      t = { block := s.block, env := { n := i.operand, readings := s.env.readings ++ [⟨i.operand, r⟩] } } :=
  ⟨_, highestBit i.variant i.operand, exec_eq i s, highestBit_toNat _ _, State.idx_toNat _, rfl⟩

/-- An operand below 2 is read as 0, in every variant (40_highest_bit_loop.md R62). -/
theorem exec_decodeWord_of_lt_two (v : Variant) (s : State) {n : Word} (hn : n.toNat < 2) :
    ∃ t, exec (decodeWord v n) s = .next t ∧ t.env.readings.getLast? = some ⟨n, 0#6⟩ ∧ t.idx = 0#6 := by
  have hzero (u : Variant) : highestBit u n = 0#6 := by
    rw [highestBit_eq, (HB_eq_zero_iff n).mpr hn]
    rfl
  refine ⟨s.evaluation n (highestBit v n), ?_, ?_, ?_⟩
  · rw [exec_eq, decodeWord_variant, decodeWord_operand]
  · rw [State.evaluation_readings, List.getLast?_concat, hzero]
  · rw [State.evaluation_idx, hzero]

end Sys2Proof.Machine

/-! ### The checks of 40_highest_bit_loop.md R67, evaluated on every input -/

namespace Sys2Proof.Machine

theorem lawMonotone_holds (n m : Word) : lawMonotone n m = true :=
  decide_eq_true HB_mono

theorem lawBracketing_holds (n : Word) : lawBracketing n = true := by
  by_cases hn : n = 0#64
  · simp [lawBracketing, hn]
  · have hbracket (k : Nat) : brackets n k = (k == HB n) := by
      rw [beq_eq_decide]
      exact decide_eq_decide.mpr ((HB_eq_iff hn).symm.trans eq_comm)
    simp [lawBracketing, hbracket]

theorem lawSetBit_holds (n : Word) : lawSetBit n = true := by
  by_cases hn : n = 0#64
  · simp [lawSetBit, hn]
  · have habove (j : Nat) : j ≤ HB n ∨ n.getLsbD j = false := (le_or_gt j (HB n)).imp_right getLsbD_of_HB_lt
    simp [lawSetBit, getLsbD_HB hn, habove]

theorem lawShift_holds (n : Word) (s : Nat) : lawShift n s = true := by
  simp [lawShift, HB_ushiftRight]

theorem lawHalving_holds (n : Word) : lawHalving n = true := by
  unfold lawHalving
  split
  next hn => exact beq_iff_eq.mpr (HB_eq_HB_halved_add_one hn)
  next hn => exact beq_iff_eq.mpr ((HB_eq_zero_iff n).mpr (not_le.mp hn))

theorem lawFibre_holds (n : Word) (k : Nat) : lawFibre n k = true := by
  rw [lawFibre, beq_iff_eq, beq_eq_decide]
  exact decide_eq_decide.mpr (HB_eq_iff_mem_fibre n k)

theorem lawOr_holds (a b : Word) : lawOr a b = true :=
  beq_iff_eq.mpr (HB_or a b)

end Sys2Proof.Machine

/-! ### The statements of 40_highest_bit_loop.md about the function and the operations -/

namespace Sys2Proof.Proofs

open Sys2Proof.Machine

/-- Settles O1: both loop operations present their operand and read `HB` of it. -/
theorem loopOperationsPresentHB : Obligations.LoopOperationsPresentHB :=
  fun n s => ⟨exec_presents_HB (.hbFull n) s, exec_presents_HB (.hbRoll n) s⟩

/-- Settles O2: both table operations present their operand and read `HB` of it. -/
theorem tableOperationsPresentHB : Obligations.TableOperationsPresentHB :=
  fun n s => ⟨exec_presents_HB (.hbTab4 n) s, exec_presents_HB (.hbTab8 n) s⟩

/-- Settles O6: 0 and 1 are the operands below 2. -/
theorem zeroAndOneGiveZero : Obligations.ZeroAndOneGiveZero :=
  fun v s => ⟨exec_decodeWord_of_lt_two v s (by decide), exec_decodeWord_of_lt_two v s (by decide)⟩

/-- Settles O12, by induction on the number of steps: the first adds one reading of the value on `n` and leaves the
block and that value, so the others add theirs from there. -/
theorem repeatedEvaluationPresentsHB : Obligations.RepeatedEvaluationPresentsHB := by
  intro k
  induction k with
  | zero => exact fun s => ⟨s, core_run_zero s, rfl, rfl, by simp⟩
  | succ k ih =>
    intro s
    obtain ⟨t, hrun, hblock, hn, hreadings⟩ := ih (s.observe s.idx)
    refine ⟨t, (core_run_succ k s).trans hrun, hblock, hn, hreadings.trans ?_⟩
    simp [State.idx_toNat, List.replicate_succ]

/-- Settles O18: `HB` is the logarithm, whose bit is set and has no 1 bit above it. -/
theorem hbIsHighestSetBit : Obligations.HBIsHighestSetBit :=
  ⟨fun n hn => ⟨Nat.le_of_lt_succ (HB_lt n), getLsbD_HB hn, fun _ => getLsbD_of_HB_lt, HB_eq_log2 n,
      fun _ => (HB_eq_iff hn).symm.trans eq_comm⟩,
    HB_zero, State.idx_toNat⟩

/-- Settles O19, row by row of the source's list. -/
theorem documentedPropertiesHold : Obligations.DocumentedPropertiesHold :=
  ⟨fun n => Nat.le_of_lt_succ (HB_lt n), HB_zero, fun _ hk => HB_two_pow (by omega),
    fun _ hk => ⟨HB_two_pow_succ_sub_one (by omega), HB_two_pow (by omega)⟩, highestBit_toNat⟩

/-- Settles O20: every variant sees only `HB`, which the bits below the highest do not change. -/
theorem lowerBitsHaveNoEffect : Obligations.LowerBitsHaveNoEffect := by
  intro v n m _ hm
  simp only [highestBit_eq v, HB_two_pow_add (HB_lt n) hm, HB_two_pow (HB_lt n), toPort_toNat (HB_lt n), and_self]

/-- Settles O21: both outputs are `HB`, which is monotone. -/
theorem outputIsMonotone : Obligations.OutputIsMonotone := by
  intro v u n m h
  rw [highestBit_toNat, highestBit_toNat]
  exact HB_mono h

/-- Settles O22: both outputs are `HB`, which a shift lowers by its amount. -/
theorem shiftLowersOutput : Obligations.ShiftLowersOutput := by
  intro v n
  simp only [highestBit_toNat]
  exact ⟨fun s _ _ => HB_ushiftRight n s, HB_eq_HB_halved_add_one⟩

/-- Settles O23: the inputs that give `k` are the interval of `fibreSize k` numbers from `fibreFirst k` on. -/
theorem fibreSizes : Obligations.FibreSizes := by
  refine fun v => ⟨?_, fun k hpos hk => ⟨?_, fun n => ?_⟩⟩
  · rw [card_filter_highestBit_eq v (Nat.zero_le 63), fibreSize_zero]
  · rw [card_filter_highestBit_eq v hk, fibreSize_of_pos hpos]
  · rw [highestBit_toNat, HB_eq_iff_mem_fibre, fibreFirst_add_fibreSize, fibreFirst_of_pos hpos]

/-- Settles O24: every output is `HB`, which takes a union to the maximum. -/
theorem orGivesMaximum : Obligations.OrGivesMaximum := by
  intro v a b
  simp only [highestBit_toNat, HB_or]

/-- Settles O49, law by law. -/
theorem functionLawsHold : Obligations.FunctionLawsHold :=
  fun n m => ⟨lawMonotone_holds n m, lawBracketing_holds n, lawSetBit_holds n, lawShift_holds n, lawHalving_holds n,
    fun k _ => lawFibre_holds n k, lawOr_holds n m⟩

end Sys2Proof.Proofs

/-! ### The records of a list of stages (40_highest_bit_loop.md R55, R56) -/

namespace Sys2Proof.Machine

/-- A record holds nothing beyond the operand, the index on entry and the width. -/
theorem eq_stageRecord_of_mem {n : Word} {i : Nat} {ws : List Nat} {r : StageRecord} (h : r ∈ stageRecords n i ws) :
    r = stageRecord n r.indexBefore r.width := by
  induction ws generalizing i with
  | nil => cases h
  | cons w ws ih =>
    obtain rfl | hlater := List.mem_cons.mp h
    · rfl
    · exact ih hlater

@[simp] theorem stageRecords_map_width (n : Word) (i : Nat) (ws : List Nat) :
    (stageRecords n i ws).map StageRecord.width = ws := by
  induction ws generalizing i with
  | nil => rfl
  | cons w ws ih => exact congrArg (w :: ·) (ih _)

/-- The first stages of a list are entered with the same indices when the list is cut off after them. -/
theorem stageRecords_take (n : Word) (i k : Nat) (ws : List Nat) :
    stageRecords n i (ws.take k) = (stageRecords n i ws).take k := by
  induction ws generalizing i k with
  | nil => simp [stageRecords]
  | cons w ws ih =>
    cases k with
    | zero => rfl
    | succ k => exact congrArg (stageRecord n i w :: ·) (ih _ k)

/-- The records of a list of stages performed in two parts. -/
theorem stageRecords_append (n : Word) (i : Nat) (as bs : List Nat) :
    stageRecords n i (as ++ bs) = stageRecords n i as ++ stageRecords n (narrow n i as) bs := by
  induction as generalizing i with
  | nil => rfl
  | cons a as ih => exact congrArg (stageRecord n i a :: ·) (ih _)

/-- A variant probes the first of HB.ROLL's widths (41_highest_bit_table.md R69). -/
theorem widthsOf_eq_take (v : Variant) : widthsOf v = (widthsOf .roll).take (widthsOf v).length := by
  cases v <;> rfl

/-- The widths of a variant are those of powers of two. -/
theorem two_pow_log2_of_mem_widthsOf (v : Variant) : ∀ w ∈ widthsOf v, 2 ^ Nat.log2 w = w := by
  cases v <;> decide

end Sys2Proof.Machine

/-! ### The invariants of the stage list (40_highest_bit_loop.md R59) -/

namespace Sys2Proof.Machine

theorem OpenWindow.le_HB {n : Word} {i w : Nat} (h : OpenWindow n i w) : i ≤ HB n := by
  rw [h.HB_eq]
  exact Nat.le_add_right _ _

theorem OpenWindow.HB_lt_add {n : Word} {i w : Nat} (h : OpenWindow n i w) (hw : 0 < w) : HB n < i + w := by
  have hle : HB n ≤ i + w - 1 := by
    rw [HB_le_iff, Nat.sub_add_cancel (by omega)]
    exact h.1
  omega

/-- (I1) to (I4) of 40_highest_bit_loop.md R59, with the index at `i` and `w` the last width performed. -/
structure StageInvariant (n : Word) (i w : Nat) : Prop where
  width_pos : 0 < w
  /-- (I1) -/
  aligned : w ∣ i
  /-- (I2) -/
  fits : i + w ≤ 64
  /-- (I3) and (I4) -/
  window : OpenWindow n i w

/-- Before the first stage. -/
theorem stageInvariant_start (n : Word) : StageInvariant n 0 64 where
  width_pos := by decide
  aligned := dvd_zero 64
  fits := le_rfl
  window := openWindow_start n

/-- A stage of half the last width keeps the invariants. -/
theorem StageInvariant.after_stage {n : Word} {i w : Nat} (h : StageInvariant n i (w + w)) :
    StageInvariant n (stage n i w) w := by
  have hw : 0 < w := by have := h.width_pos; omega
  have haligned : w ∣ i := (Dvd.intro_left 2 (two_mul w)).trans h.aligned
  have hfits : i + (w + w) ≤ 64 := h.fits
  have hwindow : OpenWindow n (stage n i w) w := h.window.after_stage
  obtain ⟨-, -, hs⟩ | ⟨-, -, hs⟩ := stage_cases n i w <;> rw [hs] at hwindow ⊢
  · exact ⟨hw, haligned.add dvd_rfl, by omega, hwindow⟩
  · exact ⟨hw, haligned, by omega, hwindow⟩

/-- A list of stages whose widths halve keeps the invariants. -/
theorem StageInvariant.after_narrow {n : Word} {i w : Nat} {ws : List Nat}
    (hws : (w :: ws).IsChain fun a b => a = b + b) (h : StageInvariant n i w) :
    StageInvariant n (narrow n i ws) (ws.getLastD w) := by
  induction ws generalizing i w with
  | nil => exact h
  | cons v ws ih =>
    obtain ⟨rfl, hchain⟩ := List.isChain_cons_cons.mp hws
    rw [narrow_cons, List.getLastD_cons]
    exact ih hchain h.after_stage

/-- In a list of stages whose widths halve every stage is entered with the invariants. -/
theorem StageInvariant.of_mem_stageRecords {n : Word} {i w : Nat} {ws : List Nat} {r : StageRecord}
    (hws : (w :: ws).IsChain fun a b => a = b + b) (h : StageInvariant n i w) (hr : r ∈ stageRecords n i ws) :
    StageInvariant n r.indexBefore (r.width + r.width) := by
  induction ws generalizing i w with
  | nil => cases hr
  | cons v ws ih =>
    obtain ⟨rfl, hchain⟩ := List.isChain_cons_cons.mp hws
    obtain rfl | hlater := List.mem_cons.mp hr
    · exact h
    · exact ih hchain h.after_stage hlater

/-- From the whole word on, each width a variant probes is half the one before (00_scope.md R8). -/
theorem widthsOf_isChain (v : Variant) : (64 :: widthsOf v).IsChain fun a b => a = b + b := by
  cases v <;> decide

/-- The width of stage `k` of every variant, 64 standing before the first. -/
theorem widthsOf_take_getLastD (v : Variant) :
    ∀ k ≤ (widthsOf v).length, ((widthsOf v).take k).getLastD 64 = 2 ^ (6 - k) := by
  cases v <;> decide

/-- The invariants hold after every number of stages of every variant. -/
theorem stageInvariant_after_stages (v : Variant) (n : Word) {k : Nat} (hk : k ≤ (widthsOf v).length) :
    StageInvariant n (narrow n 0 ((widthsOf v).take k)) (2 ^ (6 - k)) := by
  rw [← widthsOf_take_getLastD v k hk]
  exact (stageInvariant_start n).after_narrow ((widthsOf_isChain v).take (k + 1))

/-- The index the table read of HB.TAB4 is entered with. -/
theorem stageInvariant_tab4 (n : Word) : StageInvariant n (narrow n 0 (widthsOf .tab4)) 4 :=
  stageInvariant_after_stages .tab4 n le_rfl

/-- The index the table read of HB.TAB8 is entered with. -/
theorem stageInvariant_tab8 (n : Word) : StageInvariant n (narrow n 0 (widthsOf .tab8)) 8 :=
  stageInvariant_after_stages .tab8 n le_rfl

/-- Every stage of every evaluation is entered with the invariants. -/
theorem stageInvariant_of_mem_stages {v : Variant} {n : Word} {r : StageRecord} (hr : r ∈ (traceOf v n).stages) :
    StageInvariant n r.indexBefore (r.width + r.width) :=
  (stageInvariant_start n).of_mem_stageRecords (widthsOf_isChain v) hr

/-- When bit 63 or 62 is set the width-1 stage of HB.ROLL is entered with 62: the index then is even, and one less than
`HB(n)` at the least (40_highest_bit_loop.md R57). -/
theorem narrow_before_last_stage {n : Word} (h : n.getLsbD 63 = true ∨ n.getLsbD 62 = true) :
    narrow n 0 [32, 16, 8, 4, 2] = 62 := by
  obtain ⟨hw, haligned, hfits, hwindow⟩ : StageInvariant n (narrow n 0 [32, 16, 8, 4, 2]) 2 :=
    stageInvariant_after_stages .roll n (k := 5) (by decide)
  have hHB : 62 ≤ HB n := by
    rw [le_HB_iff_exists_bit (by omega)]
    obtain hbit | hbit := h
    · exact ⟨63, by omega, by omega, hbit⟩
    · exact ⟨62, by omega, by omega, hbit⟩
  have hlt := hwindow.HB_lt_add hw
  omega

end Sys2Proof.Machine

/-! ### The stage tests and the table entries are the bits of `HB` (40_highest_bit_loop.md R58) -/

namespace Sys2Proof.Machine

/-- Of the `2^(j+1)` numbers from a multiple `i` of that on, the upper half have bit `j` set. -/
theorem testBit_of_aligned_window {i j k : Nat} (haligned : 2 ^ j + 2 ^ j ∣ i) (hle : i ≤ k)
    (hlt : k < i + (2 ^ j + 2 ^ j)) : k.testBit j = decide (i + 2 ^ j ≤ k) := by
  obtain ⟨q, rfl⟩ := haligned
  obtain ⟨d, rfl⟩ := Nat.exists_eq_add_of_le hle
  have hpos : 0 < 2 ^ j := Nat.two_pow_pos j
  have hquot : ((2 ^ j + 2 ^ j) * q + d) / 2 ^ j = 2 * q + d / 2 ^ j := by
    rw [← Nat.mul_add_div hpos]
    ring_nf
  have hhalf : d / 2 ^ j < 2 := Nat.div_lt_of_lt_mul (by omega)
  rw [Nat.testBit_eq_decide_div_mod_eq, decide_eq_decide, hquot, Nat.add_le_add_iff_left,
    ← Nat.one_le_div_iff hpos]
  generalize d / 2 ^ j = e at hhalf ⊢
  omega

/-- A stage of width `2^j` entered with the invariants tests bit `j` of `HB(n)`. -/
theorem StageInvariant.stageTest_eq_testBit {n : Word} {i j : Nat} (h : StageInvariant n i (2 ^ j + 2 ^ j)) :
    stageTest n i (2 ^ j) = (HB n).testBit j := by
  have hpos : 0 < i + 2 ^ j := Nat.add_pos_right i (Nat.two_pow_pos j)
  rw [testBit_of_aligned_window h.aligned h.window.le_HB (h.window.HB_lt_add h.width_pos), Bool.eq_iff_iff,
    stageTest_iff, decide_eq_true_iff, le_HB_iff hpos]

/-- Every stage of every evaluation tests the bit of `HB(n)` that has its width as weight. -/
theorem test_eq_testBit_of_mem_stages {v : Variant} {n : Word} {r : StageRecord} (hr : r ∈ (traceOf v n).stages) :
    r.test = (HB n).testBit (Nat.log2 r.width) := by
  have hwidth : r.width ∈ widthsOf v := stageRecords_map_width n 0 (widthsOf v) ▸ List.mem_map_of_mem hr
  have hinv := stageInvariant_of_mem_stages hr
  rw [← two_pow_log2_of_mem_widthsOf v _ hwidth] at hinv
  rw [← hinv.stageTest_eq_testBit, two_pow_log2_of_mem_widthsOf v _ hwidth]
  exact congrArg StageRecord.test (eq_stageRecord_of_mem hr)

/-- The tests of an evaluation, in stage order, are the bits of `HB(n)` from bit 5 down. -/
theorem traceOf_tests (v : Variant) (n : Word) :
    (traceOf v n).tests = ((widthsOf v).map Nat.log2).map (HB n).testBit := by
  calc (traceOf v n).tests
      = (traceOf v n).stages.map fun r => (HB n).testBit (Nat.log2 r.width) :=
        List.map_congr_left fun _ => test_eq_testBit_of_mem_stages
    _ = (((traceOf v n).stages.map StageRecord.width).map Nat.log2).map (HB n).testBit := by
        rw [List.map_map, List.map_map]
        rfl
    _ = ((widthsOf v).map Nat.log2).map (HB n).testBit := by
        rw [traceOf, stageRecords_map_width]

/-- Port `idx` carries the bits of `HB(n)`. -/
theorem traceOf_idx_getLsbD (v : Variant) (n : Word) : (traceOf v n).idx.getLsbD = (HB n).testBit := by
  funext j
  rw [← BitVec.testBit_toNat]
  exact congrArg (·.testBit j) (highestBit_toNat v n)

theorem traceOf_tests_eq_idx_bits (v : Variant) (n : Word) :
    (traceOf v n).tests = ((widthsOf v).map Nat.log2).map (traceOf v n).idx.getLsbD := by
  rw [traceOf_tests, traceOf_idx_getLsbD]

/-- The six tests of HB.ROLL, written out. -/
theorem traceOf_roll_tests (n : Word) :
    (traceOf .roll n).tests =
      [(HB n).testBit 5, (HB n).testBit 4, (HB n).testBit 3, (HB n).testBit 2, (HB n).testBit 1, (HB n).testBit 0] :=
  traceOf_tests .roll n

/-- The entry of `T4` completes an index that is a multiple of 4, so it is the two bits the index lacks. -/
theorem StageInvariant.romReadT4_eq {n : Word} {i : Nat} (h : StageInvariant n i 4) :
    romReadT4 (address4 n i) = BitVec.ofNat 2 (HB n) := by
  have hsum : i + (romReadT4 (address4 n i)).toNat = HB n := h.window.resolve4_eq_HB
  have haligned : 4 ∣ i := h.aligned
  apply BitVec.eq_of_toNat_eq
  rw [BitVec.toNat_ofNat]
  omega

/-- The entry of `T8` completes an index that is a multiple of 8, so it is the three bits the index lacks. -/
theorem StageInvariant.romReadT8_eq {n : Word} {i : Nat} (h : StageInvariant n i 8) :
    romReadT8 (address8 n i) = BitVec.ofNat 3 (HB n) := by
  have hsum : i + (romReadT8 (address8 n i)).toNat = HB n := h.window.resolve8_eq_HB
  have haligned : 8 ∣ i := h.aligned
  apply BitVec.eq_of_toNat_eq
  rw [BitVec.toNat_ofNat]
  omega

theorem ofNat_two_eq_append (k : Nat) :
    BitVec.ofNat 2 k = BitVec.ofBool (k.testBit 1) ++ BitVec.ofBool (k.testBit 0) := by
  have hbits : ∀ x : BitVec 2, x = BitVec.ofBool (x.getLsbD 1) ++ BitVec.ofBool (x.getLsbD 0) := by decide
  simpa only [BitVec.getLsbD_ofNat, Nat.reduceLT, decide_true, Bool.true_and] using hbits (BitVec.ofNat 2 k)

theorem ofNat_three_eq_append (k : Nat) :
    BitVec.ofNat 3 k = BitVec.ofBool (k.testBit 2) ++ BitVec.ofBool (k.testBit 1) ++ BitVec.ofBool (k.testBit 0) := by
  have hbits : ∀ x : BitVec 3,
      x = BitVec.ofBool (x.getLsbD 2) ++ BitVec.ofBool (x.getLsbD 1) ++ BitVec.ofBool (x.getLsbD 0) := by decide
  simpa only [BitVec.getLsbD_ofNat, Nat.reduceLT, decide_true, Bool.true_and] using hbits (BitVec.ofNat 3 k)

end Sys2Proof.Machine

/-! ### The statements of 40_highest_bit_loop.md about the narrowing stages -/

namespace Sys2Proof.Proofs

open Sys2Proof.Machine

/-- Settles O26: the stage invariant, (I4) read for operand 0 and for the others. -/
theorem stageListInvariants : Obligations.StageListInvariants := by
  rintro v n k hk i rfl
  obtain ⟨-, haligned, hfits, hbelow, hreached⟩ := stageInvariant_after_stages v n hk
  refine ⟨haligned, Nat.le_sub_of_add_le hfits, hbelow, ?_, ?_⟩
  · by_cases hn : n = 0#64
    · exact .inl hn
    · refine .inr (hreached.elim id fun hi => ?_)
      rw [hi, pow_zero]
      exact Nat.one_le_iff_ne_zero.mpr (word_toNat_ne_zero_iff.mpr hn)
  · rintro rfl
    exact hreached.resolve_left (not_le.mpr (Nat.two_pow_pos _))

/-- Settles O27: a stage of width `w` is entered with an index that is a multiple of `2w` and leaves `2w` bits. -/
theorem shiftAmountsStayInRange : Obligations.ShiftAmountsStayInRange := by
  refine ⟨fun v n r hr => ?_, fun n => ⟨?_, ?_⟩, fun n hbit => ?_⟩
  · obtain ⟨hpos, haligned, hfits, -⟩ := stageInvariant_of_mem_stages hr
    have hshift : r.shift = r.indexBefore + r.width := congrArg StageRecord.shift (eq_stageRecord_of_mem hr)
    rw [two_mul]
    exact ⟨haligned, by omega, hshift, by omega, by omega, by omega⟩
  · exact Nat.le_sub_of_add_le (stageInvariant_tab4 n).fits
  · exact Nat.le_sub_of_add_le (stageInvariant_tab8 n).fits
  · have hlast : (traceOf .roll n).stages =
        stageRecords n 0 [32, 16, 8, 4, 2] ++ [stageRecord n (narrow n 0 [32, 16, 8, 4, 2]) 1] :=
      stageRecords_append n 0 [32, 16, 8, 4, 2] [1]
    rw [hlast]
    exact ⟨_, List.mem_concat_self, rfl, congrArg (· + 1) (narrow_before_last_stage hbit)⟩

/-- Settles O28: `n` reaches `2^(i + w)` exactly when `n >> i` reaches `2^w`. -/
theorem stageTestIsThreshold : Obligations.StageTestIsThreshold := by
  intro v n r hr
  have htest : r.test = stageTest n r.indexBefore r.width := congrArg StageRecord.test (eq_stageRecord_of_mem hr)
  rw [htest, stageTest_iff, BitVec.toNat_ushiftRight, Nat.shiftRight_eq_div_pow,
    Nat.le_div_iff_mul_le (Nat.two_pow_pos _), ← pow_add, add_comm]

/-- Settles O29: a variant's widths are the first of HB.ROLL's, and so are its stages. -/
theorem variantsShareStages : Obligations.VariantsShareStages := by
  intro v n
  change stageRecords n 0 (widthsOf v) = (stageRecords n 0 (widthsOf .roll)).take (widthsOf v).length
  rw [← stageRecords_take, ← widthsOf_eq_take]

/-- Settles O30: stage tests and table entries are the bits of `HB`, and so is the output. -/
theorem testsAreOutputBits : Obligations.TestsAreOutputBits := by
  refine fun n => ⟨traceOf_tests_eq_idx_bits .full n, traceOf_tests_eq_idx_bits .roll n,
    traceOf_tests_eq_idx_bits .tab4 n, ⟨_, rfl, ?_⟩, traceOf_tests_eq_idx_bits .tab8 n, ⟨_, rfl, ?_⟩⟩
  · change (highestBit .tab4 n).toNat % 4 = _
    rw [highestBit_toNat, (stageInvariant_tab4 n).romReadT4_eq, BitVec.toNat_ofNat]
  · change (highestBit .tab8 n).toNat % 8 = _
    rw [highestBit_toNat, (stageInvariant_tab8 n).romReadT8_eq, BitVec.toNat_ofNat]

/-- Settles O35: both the tests of HB.ROLL and the entry are bits of `HB`. -/
theorem entriesPackOmittedTests : Obligations.EntriesPackOmittedTests := by
  refine fun n => ⟨_, _, _, _, _, _, traceOf_roll_tests n, ?_, ?_⟩
  · rw [(stageInvariant_tab4 n).romReadT4_eq, ofNat_two_eq_append]
  · rw [(stageInvariant_tab8 n).romReadT8_eq, ofNat_three_eq_append]

end Sys2Proof.Proofs

/-! ### The top-down tree performs the stages of the loop (42_reduction_tree.md R78) -/

namespace Sys2Proof.Machine

/-- A window `v` of width `w` holds the operand shifted right by the index `i`, all of it. -/
def HoldsShifted {w : Nat} (v : BitVec w) (n : Word) (i : Nat) : Prop :=
  v.toNat = n.toNat / 2 ^ i

/-- The whole word is the window before the first level. -/
theorem holdsShifted_start (n : Word) : HoldsShifted n n 0 := by
  rw [HoldsShifted, pow_zero, Nat.div_one]

/-- A level of the tree tests what the stage of its width tests, and keeps the window the stage's index selects. -/
theorem HoldsShifted.after_level {w : Nat} {v : BitVec (w + w)} {n : Word} {i : Nat} (h : HoldsShifted v n i) :
    (keepHalf v).1 = stageTest n i w ∧ HoldsShifted (keepHalf v).2 n (stage n i w) := by
  have hquot : v.toNat / 2 ^ w = n.toNat / 2 ^ (i + w) := by rw [h, Nat.div_div_eq_div_mul, ← pow_add]
  have hlt : v.toNat / 2 ^ w < 2 ^ w := Nat.div_lt_of_lt_mul (by rw [← pow_add]; exact v.isLt)
  have hhigh : (v.extractLsb' w w).toNat = n.toNat / 2 ^ (i + w) := by
    rw [BitVec.extractLsb'_toNat, Nat.shiftRight_eq_div_pow, Nat.mod_eq_of_lt hlt, hquot]
  have hlow : (v.extractLsb' 0 w).toNat = v.toNat % 2 ^ w := by
    rw [BitVec.extractLsb'_toNat, Nat.shiftRight_zero]
  have htest : (v.extractLsb' w w != 0#w) = stageTest n i w := by
    rw [Bool.eq_iff_iff, bne_iff_ne, BitVec.toNat_ne, hhigh, BitVec.toNat_zero, stageTest_iff]
    simp
  refine ⟨htest, ?_⟩
  change (if v.extractLsb' w w != 0#w then v.extractLsb' w w else v.extractLsb' 0 w).toNat = _
  rw [htest]
  obtain ⟨ht, -, hs⟩ | ⟨ht, hbelow, hs⟩ := stage_cases n i w
  · rw [ht, hs, if_pos rfl, hhigh]
  · have hsmall : v.toNat < 2 ^ w := by
      rw [h]
      exact Nat.div_lt_of_lt_mul (by rwa [← pow_add])
    rw [ht, hs, if_neg Bool.false_ne_true, hlow, Nat.mod_eq_of_lt hsmall, h]

/-- On a window of two bits the upper bit is the test of width 1. -/
theorem HoldsShifted.getLsbD_one {v : BitVec 2} {n : Word} {i : Nat} (h : HoldsShifted v n i) :
    v.getLsbD 1 = stageTest n i 1 := by
  have hbit : v.getLsbD 1 = true ↔ 2 ≤ v.toNat := by
    rw [show v.getLsbD 1 = v.msb from rfl, BitVec.msb_eq_decide, decide_eq_true_iff]
  rw [Bool.eq_iff_iff, hbit, h, stageTest_iff, Nat.le_div_iff_mul_le (Nat.two_pow_pos i), pow_succ, mul_comm]

/-- The six tests of the top-down tree are the stage tests of HB.ROLL. -/
theorem topDown_tests (n : Word) :
    [(topDown n).t32, (topDown n).t16, (topDown n).t8, (topDown n).t4, (topDown n).t2, (topDown n).t1] =
      (traceOf .roll n).tests := by
  obtain ⟨h32, hw32⟩ := (holdsShifted_start n).after_level (w := 32)
  obtain ⟨h16, hw16⟩ := hw32.after_level (w := 16)
  obtain ⟨h8, hw8⟩ := hw16.after_level (w := 8)
  obtain ⟨h4, hw4⟩ := hw8.after_level (w := 4)
  obtain ⟨h2, hw2⟩ := hw4.after_level (w := 2)
  have h1 := hw2.getLsbD_one
  simp only [topDown, h32, h16, h8, h4, h2, h1]
  rfl

/-- Six bits concatenated are the index they are the bits of. -/
theorem bits6_getLsbD : ∀ x : Index,
    bits6 (x.getLsbD 5) (x.getLsbD 4) (x.getLsbD 3) (x.getLsbD 2) (x.getLsbD 1) (x.getLsbD 0) = x := by
  decide

/-- The top-down tree computes `HB`: its tests, most significant first, are the bits of HB.ROLL's result. -/
theorem treeTopDown_eq (n : Word) : treeTopDown n = toPort (HB n) := by
  have hbit (j : Nat) : (HB n).testBit j = (highestBit .roll n).getLsbD j := by
    rw [← BitVec.testBit_toNat, highestBit_toNat]
  have htests := topDown_tests n
  rw [traceOf_roll_tests] at htests
  simp only [List.cons.injEq, and_true] at htests
  obtain ⟨h32, h16, h8, h4, h2, h1⟩ := htests
  simp only [treeTopDown, h32, h16, h8, h4, h2, h1, hbit, bits6_getLsbD]
  exact highestBit_eq .roll n

end Sys2Proof.Machine

/-! ### The reduction tree over a block (42_reduction_tree.md R79) -/

namespace Sys2Proof.Machine

/-- The number in the block of `2^L` bits of `n` from bit `base`. -/
def blockValue (n : Word) (L base : Nat) : Nat :=
  (n.extractLsb' base (2 ^ L)).toNat

theorem blockValue_eq (n : Word) (L base : Nat) : blockValue n L base = n.toNat / 2 ^ base % 2 ^ 2 ^ L := by
  rw [blockValue, BitVec.extractLsb'_toNat, Nat.shiftRight_eq_div_pow]

theorem blockValue_lt (n : Word) (L base : Nat) : blockValue n L base < 2 ^ 2 ^ L :=
  (n.extractLsb' base (2 ^ L)).isLt

/-- A block is its lower half and, above that, its upper half. -/
theorem blockValue_succ (n : Word) (L base : Nat) :
    blockValue n (L + 1) base = blockValue n L base + 2 ^ 2 ^ L * blockValue n L (base + 2 ^ L) := by
  rw [blockValue_eq, blockValue_eq, blockValue_eq, pow_succ, mul_two, pow_add, Nat.mod_mul, Nat.div_div_eq_div_mul,
    ← pow_add]

/-- A block of one bit. -/
theorem blockValue_zero (n : Word) (base : Nat) : blockValue n 0 base = (n.getLsbD base).toNat := by
  rw [blockValue_eq, pow_zero, pow_one, ← BitVec.testBit_toNat, Nat.toNat_testBit]

/-- The whole word is the block of 64 bits from bit 0. -/
theorem blockValue_word (n : Word) : blockValue n 6 0 = n.toNat := by
  rw [blockValue_eq, pow_zero, Nat.div_one]
  exact Nat.mod_eq_of_lt n.isLt

/-- Above a non-zero upper half the logarithm is that half's, moved up by the lower half's width. -/
theorem log2_add_two_pow_mul {lo hi w : Nat} (hlo : lo < 2 ^ w) (hhi : hi ≠ 0) :
    Nat.log2 (lo + 2 ^ w * hi) = w + Nat.log2 hi := by
  have hquot : (lo + 2 ^ w * hi) / 2 ^ w = hi := by
    rw [Nat.add_mul_div_left _ _ (Nat.two_pow_pos w), Nat.div_eq_of_lt hlo, zero_add]
  have hreach : 2 ^ w ≤ lo + 2 ^ w * hi :=
    (Nat.le_mul_of_pos_right _ (Nat.pos_of_ne_zero hhi)).trans (Nat.le_add_left _ _)
  have hlog : w ≤ Nat.log2 (lo + 2 ^ w * hi) :=
    (Nat.le_log2 (lt_of_lt_of_le (Nat.two_pow_pos w) hreach).ne').mpr hreach
  have hdiv : Nat.log2 hi = Nat.log2 (lo + 2 ^ w * hi) - w := by
    rw [Nat.log2_eq_log_two, Nat.log2_eq_log_two, ← Nat.log_div_base_pow, hquot]
  omega

/-- What a tree should answer on a block of value `b`: whether it is non-zero, and where its highest 1 bit is, 0 when
there is none. -/
def Reduces {L : Nat} (a : AnyPos L) (b : Nat) : Prop :=
  (a.any = true ↔ b ≠ 0) ∧ a.pos.toNat = Nat.log2 b

/-- The node rule: right halves give a right block. -/
theorem Reduces.of_halves {L : Nat} {hi lo : AnyPos L} {bhi blo : Nat} (hhi : Reduces hi bhi) (hlo : Reduces lo blo)
    (hlt : blo < 2 ^ 2 ^ L) : Reduces (combine hi lo) (blo + 2 ^ 2 ^ L * bhi) := by
  obtain ⟨hanyhi, hposhi⟩ := hhi
  obtain ⟨hanylo, hposlo⟩ := hlo
  have hpow : 2 ^ 2 ^ L ≠ 0 := (Nat.two_pow_pos _).ne'
  have hsum : blo + 2 ^ 2 ^ L * bhi ≠ 0 ↔ bhi ≠ 0 ∨ blo ≠ 0 := by
    rw [Ne, Nat.add_eq_zero_iff, Nat.mul_eq_zero]
    tauto
  constructor
  · change (hi.any || lo.any) = true ↔ _
    rw [Bool.or_eq_true, hanyhi, hanylo, hsum]
  · change (if hi.any then BitVec.cons true hi.pos else BitVec.cons false lo.pos).toNat = _
    by_cases hb : bhi = 0
    · rw [if_neg (fun h => hanyhi.mp h hb), hb, mul_zero, add_zero, BitVec.toNat_cons', hposlo]
      simp
    · rw [if_pos (hanyhi.mpr hb), log2_add_two_pow_mul hlt hb, BitVec.toNat_cons', hposhi]
      simp [Nat.one_shiftLeft]

/-- The tree over a block is right about it, aligned or not, by induction on its levels. -/
theorem reduces_treeOver (n : Word) (L base : Nat) :
    Reduces (reduceTree (treeOver n L base)) (blockValue n L base) := by
  induction L generalizing base with
  | zero =>
    rw [blockValue_zero]
    change (n.getLsbD base = true ↔ _) ∧ 0 = _
    cases n.getLsbD base <;> decide
  | succ L ih =>
    rw [blockValue_succ]
    exact (ih (base + 2 ^ L)).of_halves (ih base) (blockValue_lt n L base)

/-- The position at the root is `HB` of the word. -/
theorem treeRoot_pos_eq (n : Word) : (treeRoot n).pos = toPort (HB n) := by
  obtain ⟨-, hpos⟩ := reduces_treeOver n 6 0
  apply BitVec.eq_of_toNat_eq
  rw [treeRoot, hpos, blockValue_word, toPort_toNat (HB_lt n), HB_eq_log2]

end Sys2Proof.Machine

/-! ### The statement that the structures are one function (42_reduction_tree.md R81) -/

namespace Sys2Proof.Proofs

open Sys2Proof.Machine

/-- Settles O40: each of the six structures puts `HB` on six wires. -/
theorem structuresAreOneFunction : Obligations.StructuresAreOneFunction := by
  intro n
  refine ⟨(highestBit_toNat .full n).symm, evalFull_eq_evalRoll n, ?_, ?_, ?_, ?_⟩
  · rw [evalRoll_eq, evalTab4_eq]
  · rw [evalTab4_eq, evalTab8_eq]
  · rw [evalTab8_eq, treeTopDown_eq]
  · rw [treeTopDown_eq, treeRoot_pos_eq]

end Sys2Proof.Proofs

/-! ### The step counts of the variants (41_highest_bit_table.md R75) -/

namespace Sys2Proof.Machine

/-- An evaluation makes one comparison per width its variant probes. -/
theorem traceOf_comparisons (v : Variant) (n : Word) : (traceOf v n).comparisons = (widthsOf v).length := by
  calc (traceOf v n).comparisons
      = ((stageRecords n 0 (widthsOf v)).map StageRecord.width).length := (List.length_map _).symm
    _ = (widthsOf v).length := by rw [stageRecords_map_width]

/-- The loop variants have no table to read (20_memory.md R30). -/
theorem traceOf_tableReads_of_loop {v : Variant} (hv : v = .full ∨ v = .roll) (n : Word) :
    (traceOf v n).tableReads = 0 := by
  obtain rfl | rfl := hv
  · rfl
  · rfl

/-- The table variants read their table once, whatever index the stages leave (20_memory.md R30). -/
theorem traceOf_tableReads_of_table {v : Variant} (hv : v = .tab4 ∨ v = .tab8) (n : Word) :
    (traceOf v n).tableReads = 1 := by
  obtain rfl | rfl := hv
  · rfl
  · rfl

end Sys2Proof.Machine

namespace Sys2Proof.Proofs

open Sys2Proof.Machine

/-- Settles O31: the comparisons are counted by the widths probed, the reads by whether the variant has a table. -/
theorem comparisonAndReadCounts : Obligations.ComparisonAndReadCounts := by
  intro n
  exact
    ⟨⟨traceOf_comparisons .full n, traceOf_tableReads_of_loop (.inl rfl) n⟩,
      ⟨traceOf_comparisons .roll n, traceOf_tableReads_of_loop (.inr rfl) n⟩,
      ⟨traceOf_comparisons .tab4 n, traceOf_tableReads_of_table (.inl rfl) n⟩,
      ⟨traceOf_comparisons .tab8 n, traceOf_tableReads_of_table (.inr rfl) n⟩⟩

end Sys2Proof.Proofs

/-! ### The window form of a stage test (42_reduction_tree.md R77) -/

namespace Sys2Proof.Machine

theorem windowTest_iff (n : Word) (i w : Nat) :
    windowTest n i w = true ↔ n.toNat / 2 ^ (i + w) % 2 ^ w ≠ 0 := by
  rw [windowTest, bne_iff_ne, BitVec.toNat_ne, BitVec.extractLsb'_toNat, Nat.shiftRight_eq_div_pow, BitVec.toNat_zero]

/-- Above a window of `2w` bits `n` is 0, so its upper half is all that the stage's shift leaves. -/
theorem OpenWindow.stageTest_eq_windowTest {n : Word} {i w : Nat} (h : OpenWindow n i (w + w)) :
    stageTest n i w = windowTest n i w := by
  have hupper : n.toNat / 2 ^ (i + w) < 2 ^ w :=
    Nat.div_lt_of_lt_mul (by rw [← pow_add, Nat.add_assoc]; exact h.1)
  rw [Bool.eq_iff_iff, stageTest_iff, windowTest_iff, Nat.mod_eq_of_lt hupper, Nat.div_ne_zero_iff]
  exact (and_iff_right (Nat.two_pow_pos _).ne').symm

/-- Every stage of every evaluation tests the upper half of the window it is entered with. -/
theorem test_eq_windowTest_of_mem_stages {v : Variant} {n : Word} {r : StageRecord} (hr : r ∈ (traceOf v n).stages) :
    r.test = windowTest n r.indexBefore r.width := by
  have htest : r.test = stageTest n r.indexBefore r.width := congrArg StageRecord.test (eq_stageRecord_of_mem hr)
  rw [htest, (stageInvariant_of_mem_stages hr).window.stageTest_eq_windowTest]

end Sys2Proof.Machine

/-! ### The windows of the top-down tree are the table addresses (42_reduction_tree.md R78) -/

namespace Sys2Proof.Machine

theorem treeTopDown_toNat (n : Word) : (treeTopDown n).toNat = HB n := by
  rw [treeTopDown_eq, toPort_toNat (HB_lt n)]

/-- After three levels the top-down tree holds what the stages of HB.TAB8 leave. -/
theorem holdsShifted_topDown_v8 (n : Word) : HoldsShifted (topDown n).v8 n (narrow n 0 (widthsOf .tab8)) :=
  (((holdsShifted_start n).after_level (w := 32)).2.after_level (w := 16)).2.after_level (w := 8) |>.2

/-- After a fourth level it holds what the stages of HB.TAB4 leave. -/
theorem holdsShifted_topDown_v4 (n : Word) : HoldsShifted (topDown n).v4 n (narrow n 0 (widthsOf .tab4)) :=
  ((holdsShifted_topDown_v8 n).after_level (w := 4)).2

theorem topDown_v8_eq_address8 (n : Word) : (topDown n).v8 = address8 n (narrow n 0 (widthsOf .tab8)) := by
  apply BitVec.eq_of_toNat_eq
  rw [(stageInvariant_tab8 n).window.address8_toNat_eq, shiftRight_toNat]
  exact holdsShifted_topDown_v8 n

theorem topDown_v4_eq_address4 (n : Word) : (topDown n).v4 = address4 n (narrow n 0 (widthsOf .tab4)) := by
  apply BitVec.eq_of_toNat_eq
  rw [(stageInvariant_tab4 n).window.address4_toNat_eq, shiftRight_toNat]
  exact holdsShifted_topDown_v4 n

end Sys2Proof.Machine

/-! ### The blocks and the shape of the reduction tree (42_reduction_tree.md R79) -/

namespace Sys2Proof.Machine

/-- A block of at most 64 bits is a word of the same value. -/
theorem toNat_block {L : Nat} (hL : L ≤ 6) (n : Word) (base : Nat) :
    ((n.extractLsb' base (2 ^ L)).setWidth 64).toNat = blockValue n L base :=
  BitVec.toNat_setWidth_of_le (Nat.pow_le_pow_right two_pos hL)

theorem leafCount_treeOver (n : Word) (L base : Nat) : leafCount (treeOver n L base) = 2 ^ L := by
  induction L generalizing base with
  | zero => rfl
  | succ L ih => rw [treeOver, leafCount, ih, ih, pow_succ, mul_two]

theorem treeDepth_treeOver (n : Word) (L base : Nat) : treeDepth (treeOver n L base) = L := by
  induction L generalizing base with
  | zero => rfl
  | succ L ih => rw [treeOver, treeDepth, ih, ih, max_self, add_comm]

/-- A binary tree has one node fewer than leaves. -/
theorem nodeCount_add_one {L : Nat} (t : ReductionTree L) : nodeCount t + 1 = leafCount t := by
  induction t with
  | leaf b => rfl
  | node hi lo ihhi ihlo => rw [nodeCount, leafCount]; omega

theorem nodeCount_treeOver (n : Word) (L base : Nat) : nodeCount (treeOver n L base) = 2 ^ L - 1 := by
  rw [← leafCount_treeOver n L base, ← nodeCount_add_one, Nat.add_sub_cancel]

end Sys2Proof.Machine

/-! ### The bit `n != 0` in the three forms (42_reduction_tree.md R80) -/

namespace Sys2Proof.Machine

theorem treeRoot_any_iff (n : Word) : (treeRoot n).any = true ↔ n ≠ 0#64 := by
  rw [treeRoot, (reduces_treeOver n 6 0).1, blockValue_word, word_toNat_ne_zero_iff]

theorem treeRoot_pos_toNat (n : Word) : (treeRoot n).pos.toNat = HB n := by
  rw [treeRoot_pos_eq, toPort_toNat (HB_lt n)]

/-- The top-down form ORs the stage tests, which are its own. -/
theorem topDownAny_eq_stageAny (n : Word) : topDownAny n = stageAny n := by
  rw [stageAny, ← topDown_tests]
  simp [topDownAny, Bool.or_assoc]

/-- An index is non-zero when one of its six bits is 1. -/
theorem index_any_bit_iff : ∀ x : Index, ([5, 4, 3, 2, 1, 0].map x.getLsbD).any id = true ↔ x.toNat ≠ 0 := by
  decide

/-- The stage tests are the bits of `HB(n)`, so one of them is 1 when `HB(n)` is not 0. -/
theorem traceOf_roll_tests_any_iff (n : Word) : (traceOf .roll n).tests.any id = true ↔ HB n ≠ 0 := by
  rw [traceOf_tests_eq_idx_bits, ← highestBit_toNat .roll n]
  exact index_any_bit_iff (highestBit .roll n)

/-- The stage tests are all 0 on operands 0 and 1, which bit 0 tells apart. -/
theorem stageAny_iff (n : Word) : stageAny n = true ↔ n ≠ 0#64 := by
  rw [stageAny, Bool.or_eq_true, traceOf_roll_tests_any_iff]
  constructor
  · rintro hany rfl
    exact absurd hany (by decide)
  · intro hn
    by_cases hHB : HB n = 0
    · exact .inr (hHB ▸ getLsbD_HB hn)
    · exact .inl hHB

end Sys2Proof.Machine

/-! ### The leading-zero view (42_reduction_tree.md R83, R84) -/

namespace Sys2Proof.Machine

/-- Subtracting from 63, which is six 1 bits, borrows nothing. -/
theorem leadingZeroView_eq_not (x : Index) : leadingZeroView x = ~~~x :=
  BitVec.allOnes_sub_eq_not x

theorem leadingZeroView_toNat (x : Index) : (leadingZeroView x).toNat = 63 - x.toNat := by
  rw [leadingZeroView_eq_not, BitVec.toNat_not]

/-- The complement of the result is the index `63 - HB(n)`. -/
theorem complement_HB (n : Word) : BitVec.ofNat 6 (63 - HB n) = ~~~BitVec.ofNat 6 (HB n) := by
  change toPort (63 - HB n) = ~~~toPort (HB n)
  apply BitVec.eq_of_toNat_eq
  rw [← leadingZeroView_eq_not, leadingZeroView_toNat, toPort_toNat (HB_lt n), toPort_toNat (by omega)]

/-- Counted down from `d` bits above the highest 1 bit there are `d` leading zeros. -/
theorem zerosBelow_HB_succ_add {n : Word} (hn : n ≠ 0#64) (d : Nat) : zerosBelow n (HB n + 1 + d) = d := by
  induction d with
  | zero => rw [add_zero, zerosBelow, if_pos (getLsbD_HB hn)]
  | succ d ih =>
    have hclear : n.getLsbD (HB n + 1 + d) = false := getLsbD_of_HB_lt (by omega)
    rw [← add_assoc, zerosBelow, hclear, if_neg Bool.false_ne_true, ih, add_comm]

theorem leadingZeros_eq {n : Word} (hn : n ≠ 0#64) : leadingZeros n = 63 - HB n := by
  have hlt := HB_lt n
  calc leadingZeros n = zerosBelow n (HB n + 1 + (63 - HB n)) := congrArg (zerosBelow n) (by omega)
    _ = 63 - HB n := zerosBelow_HB_succ_add hn _

theorem leadingZeros_zero : leadingZeros 0#64 = 64 := by decide

end Sys2Proof.Machine

/-! ### The checks of 42_reduction_tree.md R86, evaluated on every input -/

namespace Sys2Proof.Machine

theorem lawTopDown_holds (n : Word) : lawTopDown n = true :=
  beq_iff_eq.mpr (treeTopDown_toNat n)

theorem lawRoot_holds (n : Word) : lawRoot n = true := by
  have hany : (treeRoot n).any = anySet n := by rw [Bool.eq_iff_iff, treeRoot_any_iff, anySet_iff]
  rw [lawRoot, treeRoot_pos_toNat, hany, beq_self_eq_true, beq_self_eq_true, Bool.and_self]

theorem lawWindows_holds (n : Word) : lawWindows n = true :=
  List.all_eq_true.mpr fun _ hr => beq_iff_eq.mpr (test_eq_windowTest_of_mem_stages hr)

theorem lawLeadingZeros_holds (n : Word) : lawLeadingZeros n = true := by
  by_cases hn : n = 0#64
  · rw [hn]
    rfl
  · rw [lawLeadingZeros, complement_HB, leadingZeros_eq hn, beq_self_eq_true, beq_self_eq_true, Bool.and_self,
      Bool.or_true]

end Sys2Proof.Machine

/-! ### The statements of 42_reduction_tree.md about the trees and the leading-zero view -/

namespace Sys2Proof.Proofs

open Sys2Proof.Machine

/-- Settles O36: a stage is entered with a window of twice its width. -/
theorem stageTestIsWindowTest : Obligations.StageTestIsWindowTest :=
  fun _ _ _ hr => test_eq_windowTest_of_mem_stages hr

/-- Settles O37: each level of the tree performs a stage of the loop. -/
theorem topDownTreeComputesHB : Obligations.TopDownTreeComputesHB :=
  fun n => ⟨treeTopDown_toNat n, topDown_tests n, topDown_v4_eq_address4 n, topDown_v8_eq_address8 n⟩

/-- Settles O38: what the tree reduces is the value of the block. -/
theorem reductionTreeComputesHB : Obligations.ReductionTreeComputesHB := by
  rintro n L base hL block rfl
  obtain ⟨hany, hpos⟩ := reduces_treeOver n L base
  rw [← toNat_block hL] at hany hpos
  exact ⟨hany.trans word_toNat_ne_zero_iff, hpos.trans (HB_eq_log2 _).symm⟩

/-- Settles O39: the shape of a tree depends on its levels alone. -/
theorem reductionTreeShape : Obligations.ReductionTreeShape :=
  ⟨fun n L base => ⟨leafCount_treeOver n L base, nodeCount_treeOver n L base, treeDepth_treeOver n L base⟩,
    fun n => ⟨leafCount_treeOver n 6 0, nodeCount_treeOver n 6 0, treeDepth_treeOver n 6 0⟩⟩

/-- Settles O41: the view of `HB(n)` counts the zeros above bit `HB(n)`, and operand 0 has one zero more. -/
theorem leadingZeroViewHoldsOffZero : Obligations.LeadingZeroViewHoldsOffZero := by
  refine ⟨fun v n hn => ⟨leadingZeroView_eq_not _, ?_, leadingZeros_eq hn⟩, fun v => ⟨?_, leadingZeros_zero⟩⟩
  · rw [leadingZeroView_toNat, highestBit_toNat, leadingZeros_eq hn]
  · rw [leadingZeroView_toNat, highestBit_toNat, HB_zero]

/-- Settles O47: each form is 1 exactly when `n != 0`. -/
theorem anyBitIsOneInEveryForm : Obligations.AnyBitIsOneInEveryForm := by
  intro n
  have hstage : stageAny n = (treeRoot n).any := by rw [Bool.eq_iff_iff, stageAny_iff, treeRoot_any_iff]
  exact ⟨treeRoot_any_iff n, (topDownAny_eq_stageAny n).trans hstage, hstage⟩

/-- Settles O48: the four checks answer true on every input. -/
theorem structureLawsHold : Obligations.StructureLawsHold :=
  fun n => ⟨lawTopDown_holds n, lawRoot_holds n, lawWindows_holds n, lawLeadingZeros_holds n⟩

end Sys2Proof.Proofs

/-! ### Nothing stops (60_exceptions.md R87), and instances side by side (60_exceptions.md R98) -/

namespace Sys2Proof.Machine

theorem exec_goesOn (i : Instr) (s : State) : Safety.GoesOn (exec i s) :=
  ⟨s.evaluation i.operand (highestBit i.variant i.operand), exec_eq i s⟩

theorem step_goesOn (s : State) : Safety.GoesOn (step s) :=
  ⟨s.observe s.idx, step_eq s⟩

/-- The set of exception causes is empty (60_exceptions.md R87). -/
theorem fault_isEmpty : IsEmpty Fault :=
  ⟨nofun⟩

/-- Everything a list of blocks can do in one step: each reads its own port `idx`, whatever stands around it. -/
theorem stepInstances_eq_map (ss : List State) :
    stepInstances ss = .next (ss.map fun s => s.observe s.idx) := by
  induction ss with
  | nil => rfl
  | cons s ss ih => exact stepInstances_cons s ss _ ih

end Sys2Proof.Machine

/-! ### The statements of 60_exceptions.md -/

namespace Sys2Proof.Proofs

open Sys2Proof.Machine

/-- Settles O4: an operation is an evaluation, a step is a reading, and no fault exists. -/
theorem nothingStops : Obligations.NothingStops :=
  ⟨exec_goesOn, step_goesOn, fault_isEmpty⟩

/-- Settles O45: the list steps block by block, and a block's own step reads `HB` of the value on its port `n`. -/
theorem instancesAreIndependent : Obligations.InstancesAreIndependent := by
  intro ss
  refine ⟨_, stepInstances_eq_map ss, List.length_map .., fun k s hk => ?_⟩
  refine ⟨s.observe s.idx, s.idx, ?_, step_eq s, State.observe_readings .., s.idx_toNat⟩
  rw [List.getElem?_map, hk, Option.map_some]

end Sys2Proof.Proofs
